-- ==== Sys2Proof/Word.lean ====
section
/-! DEFINITION. The word types of the machine: the stored word (`w16`, rule R7) and the image byte. -/

namespace Sys2Proof

/-- `w16` (R7): the content of every memory word, register, stack entry, and of the pc (R16, R19, R34). -/
abbrev Word := BitVec 16

/-- `byte` (R7): what IN receives (R101) and what a program image is made of (R38). -/
abbrev Byte := BitVec 8

/-- The word whose low byte is `lo` and whose high byte is `hi`: `lo + 256 * hi` (R38). -/
def Word.ofBytes (lo hi : Byte) : Word := BitVec.ofNat 16 (lo.toNat + 256 * hi.toNat)

/-- The low byte of a word (R38). -/
def Word.lowByte (w : Word) : Byte := BitVec.ofNat 8 (w.toNat % 256)

/-- The high byte of a word (R38). -/
def Word.highByte (w : Word) : Byte := BitVec.ofNat 8 (w.toNat / 256)

end Sys2Proof
end

