-- ==== Sys2Proof/Config.lean ====
section
/-! DEFINITION. What is fixed for one machine: the sizes of R6, its parameters, the answers its host can give, and the
values the spec leaves free. -/

namespace Sys2Proof

/-- `MEM_WORDS` (R6, R34): the memory is the words at addresses 0 to 32767. -/
@[simp] abbrev Config.memWords : Nat := 32768

/-- `REG_BASE` (R6, R53): the first register-reference word. -/
@[simp] abbrev Config.regBase : Nat := 32768

/-- `REG_LIMIT` (R6, R53): the first illegal operand word. -/
@[simp] abbrev Config.regLimit : Nat := 32776

/-- `MOD` (R6, R89): the modulus of ADD and MULT. -/
@[simp] abbrev Config.modulus : Nat := 32768

/-- The parameters of the block (R6, and I14 and I15 for the optional outputs). They are the argument of the model: a
state carries them, no step changes them, and a statement about every state holds for every value of them
(assumption 5). -/
structure Params where
  /-- `STACK_DEPTH_MAX` (R21): `none` is unbounded, `some N` a capacity of N entries. -/
  stackDepthMax : Option Nat
  /-- `RESOLVE_TRANSFER_OPERANDS` (R55): whether address and character operands are resolved through registers. -/
  resolveTransferOperands : Bool
  /-- Whether the address feed is in use (R114). -/
  feedInUse : Bool
  /-- Whether the trace output is in use (R115). -/
  traceInUse : Bool
  deriving DecidableEq, Repr

/-- The parameters at `State.reset`: the unbounded default of R82, the value R55 gives this hardware, and the two
optional outputs not in use. DESIGN CHOICE (assumption 5), but for `resolveTransferOperands`, which R55 states. -/
def Params.default : Params :=
  { stackDepthMax := none, resolveTransferOperands := true, feedInUse := false, traceInUse := false }

/-- The host's answer to one IN (R101). `none`: the host has not answered. -/
inductive InAnswer where
  | byte (b : Byte)
  | eof
  | fail
  | none
  deriving DecidableEq, Repr, Inhabited

/-- The host's answer to one OUT (R100). `none`: the sink has not accepted. -/
inductive OutAnswer where
  | accept
  | fail
  | none
  deriving DecidableEq, Repr, Inhabited

/-- FREE VALUE (I11, I12, D32; assumption 3): the host's answer to the n-th IN for which the state lists no answer. -/
opaque Config.inDraw : Nat → InAnswer

/-- FREE VALUE (I12, D14; assumption 3): the host's answer to the n-th OUT for which the state lists no answer. -/
opaque Config.outDraw : Nat → OutAnswer

/-- FREE VALUE (assumption 6): what the 16-bit register `FAULT_VALUE` shows for a stack capacity that 16 bits cannot
hold. R104 gives it as N and R28 gives the register 16 bits. -/
opaque Config.wideCapacity : Nat → Word

end Sys2Proof
end

