-- ==== Sys2Proof/Machine/Arith.lean ====
section
/-! DEFINITION. The integer laws of the ALU (R89) and of the comparisons (R84, R85), on whole `w16` operands. -/

namespace Sys2Proof.Machine

/-- `(B + C) mod 32768`, the sum computed exactly (R90). -/
def addMod (B C : Word) : Word := BitVec.ofNat 16 ((B.toNat + C.toNat) % Config.modulus)

/-- `(B * C) mod 32768`, the product computed exactly (R91). -/
def multMod (B C : Word) : Word := BitVec.ofNat 16 (B.toNat * C.toNat % Config.modulus)

/-- `B mod C`, the unsigned remainder of the whole values, for `C` not 0 (R92). -/
def remainder (B C : Word) : Word := BitVec.ofNat 16 (B.toNat % C.toNat)

/-- `v[14:0]` (R8, R89). -/
def low15 (v : Word) : Word := v &&& 0x7FFF

/-- `B[14:0] & C[14:0]` (R93). -/
def and15 (B C : Word) : Word := low15 B &&& low15 C

/-- `B[14:0] | C[14:0]` (R94). -/
def or15 (B C : Word) : Word := low15 B ||| low15 C

/-- `(~B) & 0x7FFF` (R95). -/
def not15 (B : Word) : Word := ~~~B &&& 0x7FFF

/-- `B == C` on the whole `w16` values (R84). -/
def valuesEqual (B C : Word) : Bool := B.toNat == C.toNat

/-- `B > C`, unsigned, on the whole `w16` values (R85). -/
def valueGreater (B C : Word) : Bool := C.toNat < B.toNat

end Sys2Proof.Machine
end

