-- ==== Sys2Proof/Syntax.lean ====
section
/-! DEFINITION. The 22 instructions of R52, with their operand words, and the four operand kinds of R51. -/

namespace Sys2Proof

/-- The kind of an operand (R51): how its word is decoded. -/
inductive Kind where
  /-- V: decoded by `resolve_value` (R54). -/
  | value
  /-- D: decoded by `register_index` (R56). -/
  | dest
  /-- A: a code address, decoded by R55. -/
  | address
  /-- C: a character, decoded by R55. -/
  | char
  deriving DecidableEq, Repr

/-- An instruction: the row of R52 that its opcode word selects, with the raw operand words `a`, `b`, `c` of R10 as they
stand in memory (R55: the raw word is kept; assumption 8). What an operand word decodes to depends on its kind and on the
registers, and is found when the instruction runs (Machine/Operands.lean). -/
inductive Instr where
  | halt
  | set (a b : Word)
  | push (a : Word)
  | pop (a : Word)
  | eq (a b c : Word)
  | gt (a b c : Word)
  | jmp (a : Word)
  | jt (a b : Word)
  | jf (a b : Word)
  | add (a b c : Word)
  | mult (a b c : Word)
  | mod (a b c : Word)
  | and (a b c : Word)
  | or (a b c : Word)
  | not (a b : Word)
  | rmem (a b : Word)
  | wmem (a b : Word)
  | call (a : Word)
  | ret
  | out (a : Word)
  | inp (a : Word)
  | noop
  deriving DecidableEq, Repr

end Sys2Proof
end

