-- ==== Sys2Proof/Decode.lean ====
section
/-! DEFINITION. The opcode map of R52 as a decoder and an encoder over memory words. The decoder is total (R61): it reads
an instruction from the words that follow one another from the pc on, or rejects them by name. -/

namespace Sys2Proof

/-- The operand kinds of an opcode, in order (R52); `none` for the opcode words 22 to 65535 (R59). -/
def operandKinds : Nat → Option (List Kind)
  | 0 => some []
  | 1 => some [.dest, .value]
  | 2 => some [.value]
  | 3 => some [.dest]
  | 4 => some [.dest, .value, .value]
  | 5 => some [.dest, .value, .value]
  | 6 => some [.address]
  | 7 => some [.value, .address]
  | 8 => some [.value, .address]
  | 9 => some [.dest, .value, .value]
  | 10 => some [.dest, .value, .value]
  | 11 => some [.dest, .value, .value]
  | 12 => some [.dest, .value, .value]
  | 13 => some [.dest, .value, .value]
  | 14 => some [.dest, .value]
  | 15 => some [.dest, .value]
  | 16 => some [.value, .value]
  | 17 => some [.address]
  | 18 => some []
  | 19 => some [.char]
  | 20 => some [.dest]
  | 21 => some []
  | _ => none

/-- The instruction of an opcode with the operand words that follow it (R48, R52); `none` if the opcode is unknown or
fewer operand words follow than it takes. -/
def readInstr : Nat → List Word → Option Instr
  | 0, _ => some .halt
  | 1, a :: b :: _ => some (.set a b)
  | 2, a :: _ => some (.push a)
  | 3, a :: _ => some (.pop a)
  | 4, a :: b :: c :: _ => some (.eq a b c)
  | 5, a :: b :: c :: _ => some (.gt a b c)
  | 6, a :: _ => some (.jmp a)
  | 7, a :: b :: _ => some (.jt a b)
  | 8, a :: b :: _ => some (.jf a b)
  | 9, a :: b :: c :: _ => some (.add a b c)
  | 10, a :: b :: c :: _ => some (.mult a b c)
  | 11, a :: b :: c :: _ => some (.mod a b c)
  | 12, a :: b :: c :: _ => some (.and a b c)
  | 13, a :: b :: c :: _ => some (.or a b c)
  | 14, a :: b :: _ => some (.not a b)
  | 15, a :: b :: _ => some (.rmem a b)
  | 16, a :: b :: _ => some (.wmem a b)
  | 17, a :: _ => some (.call a)
  | 18, _ => some .ret
  | 19, a :: _ => some (.out a)
  | 20, a :: _ => some (.inp a)
  | 21, _ => some .noop
  | _, _ => none

/-- Why the decoder has no instruction. -/
inductive Reject where
  /-- There is no opcode word: the pc is 32768 or more (R65). -/
  | noOpcodeWord
  /-- The opcode word is 22 to 65535 (R49, R59). -/
  | illegalOpcode (w : Word)
  /-- The memory ends before the last operand word (R57): the kinds the opcode asks for, and the operand words that are
  there, fewer than the kinds. -/
  | truncated (kinds : List Kind) (present : List Word)
  deriving DecidableEq, Repr

/-- Reads one instruction from the words that stand from the pc on (R48, R49, R57): the opcode is the whole first word,
and it alone says how many operand words follow (R50). Whether an
operand word's kind accepts it is not asked here, but in the arm or the fetch (assumption 8). -/
def decode : List Word → Except Reject Instr
  | [] => .error .noOpcodeWord
  | op :: ws =>
    match operandKinds op.toNat with
    | none => .error (.illegalOpcode op)
    | some kinds =>
      match readInstr op.toNat ws with
      | some i => .ok i
      | none => .error (.truncated kinds ws)

/-- The opcode of an instruction (R52). -/
def Instr.opcode : Instr → Nat
  | .halt => 0
  | .set _ _ => 1
  | .push _ => 2
  | .pop _ => 3
  | .eq _ _ _ => 4
  | .gt _ _ _ => 5
  | .jmp _ => 6
  | .jt _ _ => 7
  | .jf _ _ => 8
  | .add _ _ _ => 9
  | .mult _ _ _ => 10
  | .mod _ _ _ => 11
  | .and _ _ _ => 12
  | .or _ _ _ => 13
  | .not _ _ => 14
  | .rmem _ _ => 15
  | .wmem _ _ => 16
  | .call _ => 17
  | .ret => 18
  | .out _ => 19
  | .inp _ => 20
  | .noop => 21

/-- The raw operand words of an instruction, left to right (R10). -/
def Instr.operands : Instr → List Word
  | .halt | .ret | .noop => []
  | .push a | .pop a | .jmp a | .call a | .out a | .inp a => [a]
  | .set a b | .jt a b | .jf a b | .not a b | .rmem a b | .wmem a b => [a, b]
  | .eq a b c | .gt a b c | .add a b c | .mult a b c | .mod a b c | .and a b c | .or a b c => [a, b, c]

/-- The words of an instruction (R48): the opcode word, then the operand words. -/
def encode (i : Instr) : List Word := BitVec.ofNat 16 i.opcode :: i.operands

/-- The length of an instruction in words (R50). -/
def Instr.length (i : Instr) : Nat := 1 + i.operands.length

/-- Word `k` of an instruction whose bits are `w` (bit 0 is the least significant bit of the first word), where the bits
from `nbits` on are 0: the bits `16 k + 15` to `16 k`. -/
def tableWord (nbits w k : Nat) : Word := BitVec.ofNat 16 ((w % 2 ^ nbits) >>> (16 * k))

/-- The words of an instruction whose bits are `w`, up to the longest instruction (R48: 4 words). -/
def tableWords (nbits w : Nat) : List Word :=
  [tableWord nbits w 0, tableWord nbits w 1, tableWord nbits w 2, tableWord nbits w 3]

/-- What the decoder reads from an instruction whose bits are `w`. -/
def decodeTableWord (nbits w : Nat) : Option Instr :=
  match decode (tableWords nbits w) with
  | .ok i => some i
  | .error _ => none

end Sys2Proof
end

