-- ==== Sys2Proof/Machine/State.lean ====
section
/-! DEFINITION. The state of the block (R15), of its host's side of the ports (R30, R31), and the state right after
reset (R118). Plain data. -/

namespace Sys2Proof.Machine

/-- `STATUS.STATE` (R27): IDLE, RUNNING, HALTED, FAULTED, WAIT_INPUT, WAIT_OUTPUT. -/
inductive RunState where
  | idle
  | running
  | halted
  | faulted
  | waitInput
  | waitOutput
  deriving DecidableEq, Repr

/-- The fault kinds 1 to 8 of R104. Kind 0, no fault, is `none` of `Option FaultKind`. -/
inductive FaultKind where
  | illegalOpcode
  | invalidRegisterReference
  | stackUnderflow
  | memoryOutOfRange
  | inputExhausted
  | divisionByZero
  | stackOverflow
  | ioFailure
  deriving DecidableEq, Repr

/-- The memory (R25, R34), as the bytes of its words: the word at address `k` is the bytes at `2k` (low) and `2k + 1`
(high), the order R38 gives a program image. A byte that is not listed is 0 (R118). Assumption 1. -/
abbrev Memory := List Host.Cell

/-- What the host drives on the `reset`, `load` and `start` ports in one step (R31). Assumption 2. -/
inductive HostCommand where
  /-- No command: the engine has this step. -/
  | none
  | reset
  /-- One word offered on the `load` port: a `u15` address and a `w16`. -/
  | load (addr : BitVec 15) (data : Word)
  | start
  deriving DecidableEq, Repr

/-- One record of the trace output (R115): the pc, the stack pointer and the registers at the start of the step, and the
instruction with its raw words. -/
structure TraceRecord where
  pc : Word
  stackPointer : Nat
  regs : Vector Word 8
  instr : Instr
  deriving DecidableEq, Repr

/-- The host's side of the ports (R30, R31): not state of the block, but what a run of it needs of its host, and a record
of what left the block. The MODEL's own fields (assumptions 2, 3 and 4). -/
structure Ports where
  /-- The commands the host gives in the coming steps, one a step; none after the last. -/
  commands : List HostCommand
  /-- The host's answers to the coming INs; after the last, an answer is `Config.inDraw` of `inDraws`. -/
  inAnswers : List InAnswer
  /-- How many IN answers have been drawn from `Config.inDraw`. -/
  inDraws : Nat
  /-- The host's answers to the coming OUTs; after the last, an answer is `Config.outDraw` of `outDraws`. -/
  outAnswers : List OutAnswer
  /-- How many OUT answers have been drawn from `Config.outDraw`. -/
  outDraws : Nat
  /-- The values emitted on the `out` port since reset (R100), oldest first. -/
  output : List Word
  /-- The addresses offered on the `feed` port since reset (R114), oldest first. -/
  feed : List Word
  /-- The records of the `trace` port since reset (R115), oldest first. -/
  trace : List TraceRecord
  deriving DecidableEq, Repr

/-- The state: the tuple of R15 (with the run state and the fault kind of R27 and the fault record of R28), the
parameters of R6, and the host's side of the ports. The stack pointer is the length of `stack` (R23). -/
structure State where
  mem : Memory
  /-- The registers 0 to 7 (R16). -/
  regs : Vector Word 8
  /-- The operand stack, top last (R15, R21). -/
  stack : List Word
  pc : Word
  /-- `STATUS.STATE` (R27). -/
  runState : RunState
  /-- `STATUS.KIND` (R27). -/
  kind : Option FaultKind
  /-- `FAULT_PC` (R28). -/
  faultPc : Word
  /-- `FAULT_VALUE` (R28). -/
  faultValue : Word
  params : Params
  ports : Ports
  deriving DecidableEq, Repr

/-- Why the machine would stop outside its own state. It has no constructor: every error of this machine is a fault of
R104, which the block enters as a state (R105), and the step that meets it answers that state. Nobody raises one; that is
safe, since the block itself says what each error does (assumption 7). -/
inductive Fault where
  deriving DecidableEq, Repr

/-- Why the model gives an instruction no meaning. -/
inductive Refusal where
  /-- An arm of `exec` whose instruction has no meaning yet; safe. No arm of this model raises it: all 22 instructions of
  R52 have their meaning. -/
  | notModelled (mnemonic : String)
  deriving DecidableEq, Repr

/-- The host's side of the ports with nothing pending and nothing emitted (R118: "feed, trace | nothing pending"). -/
def Ports.empty : Ports :=
  { commands := [], inAnswers := [], inDraws := 0, outAnswers := [], outDraws := 0, output := [], feed := [], trace := [] }

/-- The state right after reset (R118). -/
def State.reset : State :=
  { mem := []
    regs := Vector.replicate 8 0
    stack := []
    pc := 0
    runState := .idle
    kind := none
    faultPc := 0
    faultValue := 0
    params := Params.default
    ports := Ports.empty }

end Sys2Proof.Machine
end

