-- ==== Sys2Proof/Machine/Memory.lean ====
section
/-! DEFINITION. The memory as a canonical list of bytes, and the access primitives of R36 and R37 on whole words. -/

namespace Sys2Proof.Machine

/-- The byte at byte address `n`; 0 where none is listed (R118). -/
def Memory.readByte : Memory → Nat → Byte
  | [], _ => 0
  | (k, v) :: rest, n => if k = n then v else Memory.readByte rest n

/-- The memory without any cell at byte address `n`. -/
def Memory.eraseByte (m : Memory) (n : Nat) : Memory := m.filter fun c => c.1 != n

/-- The memory with a cell put in front of the first cell of a higher address. -/
def Memory.insertByte : Memory → Nat → Byte → Memory
  | [], n, v => [(n, v)]
  | (k, u) :: rest, n, v => if n < k then (n, v) :: (k, u) :: rest else (k, u) :: Memory.insertByte rest n v

/-- The memory with byte `v` at byte address `n`, in canonical form: a byte that is 0 has no cell. -/
def Memory.writeByte (m : Memory) (n : Nat) (v : Byte) : Memory :=
  if v = 0 then m.eraseByte n else (m.eraseByte n).insertByte n v

/-- The canonical form: addresses strictly rising and inside the 32768 words, and no cell that holds 0. -/
abbrev Memory.wf (m : Memory) : Prop :=
  m.Pairwise (fun p q => p.1 < q.1) ∧ ∀ c ∈ m, c.2 ≠ 0 ∧ c.1 < 2 * Config.memWords

/-- The word at word address `k` (R34, R38). -/
def Memory.readWord (m : Memory) (k : Nat) : Word :=
  Word.ofBytes (m.readByte (2 * k)) (m.readByte (2 * k + 1))

/-- The memory with the word `w` at word address `k` (R34, R38). -/
def Memory.writeWord (m : Memory) (k : Nat) (w : Word) : Memory :=
  (m.writeByte (2 * k) w.lowByte).writeByte (2 * k + 1) w.highByte

/-- `MemRead(addr, 1)` (R36): `none` where it raises MemoryOutOfRange. -/
def Memory.read? (m : Memory) (addr : Nat) : Option Word :=
  if addr < Config.memWords then some (m.readWord addr) else none

/-- `MemWrite(addr, 1, v)` (R37): `none` where it raises MemoryOutOfRange. -/
def Memory.write? (m : Memory) (addr : Nat) (v : Word) : Option Memory :=
  if addr < Config.memWords then some (m.writeWord addr v) else none

end Sys2Proof.Machine
end

