-- ==== Sys2Proof/Machine/Ops.lean ====
section
/-! DEFINITION. The shared operations of the step: registers, stack, memory, ports, commit (R70), hold (R116) and taking
a fault (R105). The `with…` operations go on with what they got, or end the step with the fault that R9's primitive
raises. -/

namespace Sys2Proof.Machine

/-- `x[i]` (R9, R16). -/
def State.reg (s : State) (i : Fin 8) : Word := s.regs[i.val]

/-- `x[i] <- v` (R9, R16). -/
def State.setReg (s : State) (i : Fin 8) (v : Word) : State := { s with regs := s.regs.set i.val v }

/-- The code of a fault kind, for `STATUS.KIND` (R104). -/
def FaultKind.code : FaultKind → Nat
  | .illegalOpcode => 1
  | .invalidRegisterReference => 2
  | .stackUnderflow => 3
  | .memoryOutOfRange => 4
  | .inputExhausted => 5
  | .divisionByZero => 6
  | .stackOverflow => 7
  | .ioFailure => 8

/-- The code of a run state, for `STATUS.STATE` (R27). -/
def RunState.code : RunState → Nat
  | .idle => 0
  | .running => 1
  | .halted => 2
  | .faulted => 3
  | .waitInput => 4
  | .waitOutput => 5

/-- The states in which the engine takes steps (R64). -/
def RunState.steps : RunState → Bool
  | .running | .waitInput | .waitOutput => true
  | .idle | .halted | .faulted => false

/-- The run state after a commit: RUNNING again after a wait, else as it is (R70). -/
def RunState.resumed : RunState → RunState
  | .waitInput | .waitOutput => .running
  | r => r

/-- TAKING A FAULT, `raise Fault(kind, value)` (R105): memory, registers, stack and pc stay, the run ends FAULTED, and the
fault record keeps the kind, the pc of the step and the value. -/
def State.raise (s : State) (k : FaultKind) (value : Word) : State :=
  { s with runState := .faulted, kind := some k, faultPc := s.pc, faultValue := value }

/-- `hold` (R9, R116): only `STATUS.STATE` shows the wait. -/
def State.hold (s : State) (wait : RunState) : State := { s with runState := wait }

/-- `next_pc` (R50): the pc plus 1 plus the operand count (assumption 9 on the 16 bits). -/
def State.nextPc (s : State) (i : Instr) : Word := s.pc + BitVec.ofNat 16 i.length

/-- The trace record of the instruction `i` run at the state `s` (R115). -/
def State.record (s : State) (i : Instr) : TraceRecord :=
  { pc := s.pc, stackPointer := s.stack.length, regs := s.regs, instr := i }

/-- The trace port's records after the instruction `i`, run at the state `s`, has committed (R115). -/
def State.traceAfter (s : State) (i : Instr) : List TraceRecord :=
  if s.params.traceInUse then s.ports.trace ++ [s.record i] else s.ports.trace

/-- Commit (R70) of the instruction `i`, started at the state `s`: `t` holds its other writes, the pc becomes `newpc`,
a wait ends, and the trace record leaves the block. -/
def State.commit (s : State) (i : Instr) (newpc : Word) (t : State) : State :=
  { t with
    pc := newpc
    runState := t.runState.resumed
    ports := { t.ports with trace := s.traceAfter i } }

/-- Commit with the default sequencing of R71. -/
def State.commitNext (s : State) (i : Instr) (t : State) : State := s.commit i (s.nextPc i) t

/-- `Feed(a)` (R114): the address is offered when the feed is in use. -/
def State.feedAddr (s : State) (a : Word) : State :=
  { s with ports := { s.ports with feed := if s.params.feedInUse then s.ports.feed ++ [a] else s.ports.feed } }

/-- Commit of a transfer that is taken (R114): the pc becomes the target, and the target is fed. -/
def State.commitJump (s : State) (i : Instr) (target : Word) (t : State) : State :=
  s.commit i target (t.feedAddr target)

/-- The stack holds as many entries as `STACK_DEPTH_MAX` allows (R21). -/
def State.stackFull (s : State) : Bool :=
  match s.params.stackDepthMax with
  | none => false
  | some n => s.stack.length == n

/-- What `FAULT_VALUE` shows for a stack capacity `n` (R104): `n`, or a FREE VALUE where 16 bits cannot hold it
(assumption 6). -/
def capacityWord (n : Nat) : Word := if n < 2 ^ 16 then BitVec.ofNat 16 n else Config.wideCapacity n

/-- The `FAULT_VALUE` of a StackOverflow (R104). -/
def State.capacityValue (s : State) : Word :=
  match s.params.stackDepthMax with
  | none => 0
  | some n => capacityWord n

/-- `Push(v)` (R21), then `k` with the longer stack, or StackOverflow. -/
def withPush (s : State) (v : Word) (k : State → State) : State :=
  if s.stackFull then s.raise .stackOverflow s.capacityValue else k { s with stack := s.stack ++ [v] }

/-- `Pop()` (R22), then `k` with the popped word and the shorter stack, or StackUnderflow. -/
def withPop (s : State) (k : Word → State → State) : State :=
  match s.stack.getLast? with
  | none => s.raise .stackUnderflow 0
  | some v => k v { s with stack := s.stack.dropLast }

/-- `MemRead(addr, 1)` (R36), then `k` with the word, or MemoryOutOfRange. -/
def withMemRead (s : State) (addr : Word) (k : Word → State) : State :=
  match s.mem.read? addr.toNat with
  | some v => k v
  | none => s.raise .memoryOutOfRange addr

/-- `MemWrite(addr, 1, v)` (R37), then `k` with the written memory, or MemoryOutOfRange. -/
def withMemWrite (s : State) (addr v : Word) (k : State → State) : State :=
  match s.mem.write? addr.toNat v with
  | some m => k { s with mem := m }
  | none => s.raise .memoryOutOfRange addr

/-- The host's answer to an IN of this step (R101; assumption 3). -/
def Ports.inAnswer (p : Ports) : InAnswer :=
  match p.inAnswers with
  | [] => Config.inDraw p.inDraws
  | a :: _ => a

/-- The ports once that answer has been taken. -/
def Ports.takeIn (p : Ports) : Ports :=
  match p.inAnswers with
  | [] => { p with inDraws := p.inDraws + 1 }
  | _ :: rest => { p with inAnswers := rest }

/-- The host's answer to an OUT of this step (R100; assumption 3). -/
def Ports.outAnswer (p : Ports) : OutAnswer :=
  match p.outAnswers with
  | [] => Config.outDraw p.outDraws
  | a :: _ => a

/-- The ports once that answer has been taken. -/
def Ports.takeOut (p : Ports) : Ports :=
  match p.outAnswers with
  | [] => { p with outDraws := p.outDraws + 1 }
  | _ :: rest => { p with outAnswers := rest }

/-- `Receive()` (R9, R101): `k` with the byte, or the fault or hold that the host's other answers give. -/
def withReceive (s : State) (k : Byte → State → State) : State :=
  let t := { s with ports := s.ports.takeIn }
  match s.ports.inAnswer with
  | .byte b => k b t
  | .eof => t.raise .inputExhausted 0
  | .fail => t.raise .ioFailure 0
  | .none => t.hold .waitInput

/-- `Emit(v)` (R9, R100): `k` when the sink accepts, and the value has left the block; else a fault or a hold. -/
def withEmit (s : State) (v : Word) (k : State → State) : State :=
  let t := { s with ports := s.ports.takeOut }
  match s.ports.outAnswer with
  | .accept => k { t with ports := { t.ports with output := t.ports.output ++ [v] } }
  | .fail => t.raise .ioFailure 0
  | .none => t.hold .waitOutput

end Sys2Proof.Machine
end

