-- ==== Sys2Proof/Machine/Operands.lean ====
section
/-! DEFINITION. The operand resolver: what the four operand kinds of R51 decode to. -/

namespace Sys2Proof.Machine

/-- `register_index` (R56): `none` where it raises InvalidRegisterReference. -/
def destIndex? (raw : Word) : Option (Fin 8) :=
  if h : Config.regBase ≤ raw.toNat ∧ raw.toNat < Config.regLimit then
    some ⟨raw.toNat - Config.regBase, by simp at h ⊢; omega⟩
  else none

/-- `resolve_value` (R54), reading the registers of `s`: `none` where it raises InvalidRegisterReference. -/
def State.value? (s : State) (raw : Word) : Option Word :=
  if raw.toNat < Config.regBase then some raw
  else (destIndex? raw).map s.reg

/-- `decode_A` and `decode_C` (R55): as a value operand, or raw under the alternative reading. -/
def State.transfer? (s : State) (raw : Word) : Option Word :=
  if s.params.resolveTransferOperands then s.value? raw else some raw

/-- Whether the decoder accepts an operand word of a kind (R59); `resolve` is `RESOLVE_TRANSFER_OPERANDS`. -/
def operandAccepted (resolve : Bool) : Kind → Word → Bool
  | .value, raw => raw.toNat < Config.regLimit
  | .dest, raw => (destIndex? raw).isSome
  | .address, raw | .char, raw => !resolve || raw.toNat < Config.regLimit

/-- The first operand word, left to right, that its kind does not accept (R57, R110). -/
def firstRejected? (resolve : Bool) (kinds : List Kind) (raws : List Word) : Option Word :=
  ((kinds.zip raws).find? (fun p => !operandAccepted resolve p.1 p.2)).map Prod.snd

/-- Goes on with a decoded operand, or raises InvalidRegisterReference with the operand word (R54, R56). -/
def withOperand {α : Type} (s : State) (raw : Word) (decoded : Option α) (k : α → State) : State :=
  match decoded with
  | some v => k v
  | none => s.raise .invalidRegisterReference raw

/-- A D operand (R56). -/
def withDest (s : State) (raw : Word) (k : Fin 8 → State) : State := withOperand s raw (destIndex? raw) k

/-- A V operand (R54). -/
def withValue (s : State) (raw : Word) (k : Word → State) : State := withOperand s raw (s.value? raw) k

/-- An A or C operand (R55). -/
def withTransfer (s : State) (raw : Word) (k : Word → State) : State := withOperand s raw (s.transfer? raw) k

/-- The shape D, V: the result of `f` on the value goes to the destination register. -/
def destValue (i : Instr) (a b : Word) (f : Word → Word) (s : State) : State :=
  withDest s a fun d => withValue s b fun B => s.commitNext i (s.setReg d (f B))

/-- The shape D, V, V: the result of `f` on the two values goes to the destination register. -/
def destValueValue (i : Instr) (a b c : Word) (f : Word → Word → Word) (s : State) : State :=
  withDest s a fun d => withValue s b fun B => withValue s c fun C => s.commitNext i (s.setReg d (f B C))

end Sys2Proof.Machine
end

