-- ==== Sys2Proof/Machine/Alu.lean ====
section
/-! DEFINITION. ADD, MULT, MOD, AND, OR and NOT (R89 to R95). -/

namespace Sys2Proof.Machine

/-- ADD dst, a, b (R90). -/
def execAdd (a b c : Word) (s : State) : Host.Outcome State Fault Refusal :=
  .next (destValueValue (.add a b c) a b c addMod s)

/-- MULT dst, a, b (R91). -/
def execMult (a b c : Word) (s : State) : Host.Outcome State Fault Refusal :=
  .next (destValueValue (.mult a b c) a b c multMod s)

/-- MOD dst, a, b (R92): a divisor of 0 raises DivisionByZero. -/
def execMod (a b c : Word) (s : State) : Host.Outcome State Fault Refusal :=
  .next (withDest s a fun d => withValue s b fun B => withValue s c fun C =>
    if C = 0 then s.raise .divisionByZero 0
    else s.commitNext (.mod a b c) (s.setReg d (remainder B C)))

/-- AND dst, a, b (R93). -/
def execAnd (a b c : Word) (s : State) : Host.Outcome State Fault Refusal :=
  .next (destValueValue (.and a b c) a b c and15 s)

/-- OR dst, a, b (R94). -/
def execOr (a b c : Word) (s : State) : Host.Outcome State Fault Refusal :=
  .next (destValueValue (.or a b c) a b c or15 s)

/-- NOT dst, a (R95). -/
def execNot (a b : Word) (s : State) : Host.Outcome State Fault Refusal :=
  .next (destValue (.not a b) a b not15 s)

end Sys2Proof.Machine
end

