-- ==== Sys2Proof/Machine/Flags.lean ====
section
/-! DEFINITION. The machine has no flags, condition codes or predicate registers (R26), so there is no flag to compute.
What stands in their place: the 0 or 1 that a comparison writes to a register, and the test of a value operand that JT and
JF make. -/

namespace Sys2Proof.Machine

/-- The word a comparison writes (R26, R84, R85): 1 if it holds, else 0. -/
def truthWord (holds : Bool) : Word := if holds then 1 else 0

/-- The test of JT and JF (R87, R88): any non-zero `w16` is true. -/
def isNonZero (v : Word) : Bool := v != 0

end Sys2Proof.Machine
end

