-- ==== Sys2Proof/Machine/Branch.lean ====
section
/-! DEFINITION. JMP, JT and JF (R86 to R88). Both operands of JT and JF are decoded whether or not the jump is taken. -/

namespace Sys2Proof.Machine

/-- The end of a conditional jump: to the target, which is fed, or on to the next instruction (R87, R88). -/
def jumpIf (i : Instr) (taken : Bool) (target : Word) (s : State) : State :=
  if taken then s.commitJump i target s else s.commitNext i s

/-- JMP addr (R86). -/
def execJmp (a : Word) (s : State) : Host.Outcome State Fault Refusal :=
  .next (withTransfer s a fun A => s.commitJump (.jmp a) A s)

/-- JT cond, addr (R87). -/
def execJt (a b : Word) (s : State) : Host.Outcome State Fault Refusal :=
  .next (withValue s a fun A => withTransfer s b fun B => jumpIf (.jt a b) (isNonZero A) B s)

/-- JF cond, addr (R88). -/
def execJf (a b : Word) (s : State) : Host.Outcome State Fault Refusal :=
  .next (withValue s a fun A => withTransfer s b fun B => jumpIf (.jf a b) (!isNonZero A) B s)

end Sys2Proof.Machine
end

