-- ==== Sys2Proof/Machine/Compare.lean ====
section
/-! DEFINITION. EQ and GT (R84, R85). -/

namespace Sys2Proof.Machine

/-- EQ dst, a, b (R84). -/
def execEq (a b c : Word) (s : State) : Host.Outcome State Fault Refusal :=
  .next (destValueValue (.eq a b c) a b c (fun B C => truthWord (valuesEqual B C)) s)

/-- GT dst, a, b (R85). -/
def execGt (a b c : Word) (s : State) : Host.Outcome State Fault Refusal :=
  .next (destValueValue (.gt a b c) a b c (fun B C => truthWord (valueGreater B C)) s)

end Sys2Proof.Machine
end

