-- ==== Sys2Proof/Machine/DataMovement.lean ====
section
/-! DEFINITION. HALT, SET, PUSH and POP (R80 to R83). -/

namespace Sys2Proof.Machine

/-- HALT (R80, R75): the pc goes to the next word and the run ends HALTED. -/
def execHalt (s : State) : Host.Outcome State Fault Refusal :=
  .next (s.commitNext .halt { s with runState := .halted })

/-- SET dst, val (R81): the value is copied unchanged. -/
def execSet (a b : Word) (s : State) : Host.Outcome State Fault Refusal :=
  .next (destValue (.set a b) a b id s)

/-- PUSH val (R82). -/
def execPush (a : Word) (s : State) : Host.Outcome State Fault Refusal :=
  .next (withValue s a fun A => withPush s A fun t => s.commitNext (.push a) t)

/-- POP dst (R83): the destination is decoded before the stack is popped. -/
def execPop (a : Word) (s : State) : Host.Outcome State Fault Refusal :=
  .next (withDest s a fun d => withPop s fun v t => s.commitNext (.pop a) (t.setReg d v))

end Sys2Proof.Machine
end

