-- ==== Sys2Proof/Machine/InputOutput.lean ====
section
/-! DEFINITION. OUT, IN and NOOP (R100 to R102). The host is asked only after the operand has been decoded. -/

namespace Sys2Proof.Machine

/-- OUT char (R100): the whole `w16` is offered. -/
def execOut (a : Word) (s : State) : Host.Outcome State Fault Refusal :=
  .next (withTransfer s a fun A => withEmit s A fun t => s.commitNext (.out a) t)

/-- IN dst (R101): the byte is widened with zeros. -/
def execIn (a : Word) (s : State) : Host.Outcome State Fault Refusal :=
  .next (withDest s a fun d => withReceive s fun b t => s.commitNext (.inp a) (t.setReg d (b.setWidth 16)))

/-- NOOP (R102). -/
def execNoop (s : State) : Host.Outcome State Fault Refusal :=
  .next (s.commitNext .noop s)

end Sys2Proof.Machine
end

