-- ==== Sys2Proof/Machine/MemoryAccess.lean ====
section
/-! DEFINITION. RMEM and WMEM (R96, R97). Their address is a value operand, used as an absolute word address. -/

namespace Sys2Proof.Machine

/-- RMEM dst, addr (R96). -/
def execRmem (a b : Word) (s : State) : Host.Outcome State Fault Refusal :=
  .next (withDest s a fun d => withValue s b fun B =>
    withMemRead s B fun v => s.commitNext (.rmem a b) (s.setReg d v))

/-- WMEM addr, val (R97). -/
def execWmem (a b : Word) (s : State) : Host.Outcome State Fault Refusal :=
  .next (withValue s a fun A => withValue s b fun B =>
    withMemWrite s A B fun t => s.commitNext (.wmem a b) t)

end Sys2Proof.Machine
end

