-- ==== Sys2Proof/Machine/Subroutine.lean ====
section
/-! DEFINITION. CALL and RET (R98, R99). -/

namespace Sys2Proof.Machine

/-- CALL addr (R98): the return address goes onto the operand stack. -/
def execCall (a : Word) (s : State) : Host.Outcome State Fault Refusal :=
  .next (withTransfer s a fun A => withPush s (s.nextPc (.call a)) fun t => s.commitJump (.call a) A t)

/-- RET (R99): to whatever word is on top of the stack. -/
def execRet (s : State) : Host.Outcome State Fault Refusal :=
  .next (withPop s fun v t => s.commitJump .ret v t)

end Sys2Proof.Machine
end

