-- ==== Sys2Proof/Machine/Fetch.lean ====
section
/-! DEFINITION. Fetch and decode of the next instruction (R57, R65, R66), with the order of faults of R110. -/

namespace Sys2Proof.Machine

/-- The memory words from word address `pc` on that an instruction can take (R48: at most 4), as far as the memory goes. -/
def fetchWindow (m : Memory) (pc : Nat) : List Word :=
  [m.read? pc, m.read? (pc + 1), m.read? (pc + 2), m.read? (pc + 3)].filterMap id

/-- The fault of an instruction whose words run past the end of the memory (R57, R110): the first operand word that its
kind does not accept, or else MemoryOutOfRange of the first operand address that does not exist. -/
def truncatedFault (resolve : Bool) (pc : Word) (kinds : List Kind) (present : List Word) : FaultKind × Word :=
  match firstRejected? resolve kinds present with
  | some raw => (.invalidRegisterReference, raw)
  | none => (.memoryOutOfRange, pc + BitVec.ofNat 16 (1 + present.length))

/-- The fault with which the engine ends a step whose words the decoder rejects (R57, R65, R110). -/
def rejectFault (s : State) : Reject → FaultKind × Word
  | .noOpcodeWord => (.memoryOutOfRange, s.pc)
  | .illegalOpcode op => (.illegalOpcode, op)
  | .truncated kinds present => truncatedFault s.params.resolveTransferOperands s.pc kinds present

/-- The instruction at the pc, or the fault that ends the step before any arm runs (R57, R65). An instruction whose words
are all there and whose operand words its kinds do not all accept is answered here and faults in its arm, where its
operands are decoded left to right before anything else (R66, R110). -/
def fetch (s : State) : Except (FaultKind × Word) Instr :=
  match decode (fetchWindow s.mem s.pc.toNat) with
  | .ok i => .ok i
  | .error r => .error (rejectFault s r)

end Sys2Proof.Machine
end

