-- ==== Sys2Proof/Machine/HostPort.lean ====
section
/-! DEFINITION. The host's ports (R31): the `reset`, `load` and `start` commands (R118 to R121), the program image (R38,
R119), the `status` registers (R27, R28) and post-mortem inspection (R32). -/

namespace Sys2Proof.Machine

/-- The command of this step (assumption 2): none after the last that the host gives. -/
def State.command (s : State) : HostCommand := s.ports.commands.headD .none

/-- The state once this step's command has been taken. -/
def State.dropCommand (s : State) : State := { s with ports := { s.ports with commands := s.ports.commands.tail } }

/-- The `reset` port (R118): every field of the block and every emitted record goes to its reset value. The parameters
and what the host still has to give are not the block's, and stay (assumption 4). -/
def State.resetByHost (s : State) : State :=
  { State.reset with
    params := s.params
    ports := { s.ports with output := [], feed := [], trace := [] } }

/-- The `load` port (R119): writes one memory word in IDLE, and is ignored in every other state. -/
def State.loadByHost (s : State) (addr : BitVec 15) (data : Word) : State :=
  if s.runState = .idle then { s with mem := s.mem.writeWord addr.toNat data } else s

/-- The `start` port (R120): IDLE to RUNNING, and ignored in every other state. -/
def State.startByHost (s : State) : State :=
  if s.runState = .idle then { s with runState := .running } else s

/-- What a command of the host does to the block. -/
def State.obey (s : State) : HostCommand → State
  | .none => s
  | .reset => s.resetByHost
  | .load addr data => s.loadByHost addr data
  | .start => s.startByHost

/-- The words of a program image (R38, R119): little-endian, and `none` for an odd number of bytes. -/
def imageWords : List Byte → Option (List Word)
  | [] => some []
  | [_] => none
  | lo :: hi :: rest => (imageWords rest).map (Word.ofBytes lo hi :: ·)

/-- The `load` commands that put words at consecutive addresses from `addr` on (R119). -/
def loadCommands (addr : Nat) : List Word → List HostCommand
  | [] => []
  | w :: ws => .load (BitVec.ofNat 15 addr) w :: loadCommands (addr + 1) ws

/-- The boot order of R122: reset, load, start. `none` where R119 refuses the image and the block is not started: an odd
number of bytes, or more than 32768 words. -/
def bootCommands (image : List Byte) : Option (List HostCommand) :=
  match imageWords image with
  | none => none
  | some ws =>
    if ws.length ≤ Config.memWords then some (.reset :: (loadCommands 0 ws ++ [.start])) else none

/-- The register `STATUS` (R27): STATE in bits 2:0, KIND in bits 7:3, the bits 15:8 read 0. -/
def State.status (s : State) : Word :=
  BitVec.ofNat 16 (s.runState.code + 8 * (s.kind.elim 0 FaultKind.code))

/-- The states in which the host may inspect (R31, R32). -/
def State.inspectable (s : State) : Bool :=
  match s.runState with
  | .idle | .halted | .faulted => true
  | .running | .waitInput | .waitOutput => false

/-- What the host may ask the `inspect` port for: every field of the state tuple of R15 (R31, R32). A stack entry is
counted from the bottom, from 0 (assumption 12). -/
inductive InspectQuery where
  | memWord (addr : BitVec 15)
  | register (i : Fin 8)
  | stackEntry (n : Nat)
  | stackPointer
  | pc
  | status
  | faultPc
  | faultValue
  deriving DecidableEq, Repr

/-- The answer of the `inspect` port (R32): `none` while a run is in progress, or for a stack entry that does not exist.
It changes no state. -/
def State.inspect (s : State) (q : InspectQuery) : Option Nat :=
  if s.inspectable then
    match q with
    | .memWord addr => some (s.mem.readWord addr.toNat).toNat
    | .register i => some (s.reg i).toNat
    | .stackEntry n => s.stack[n]?.map BitVec.toNat
    | .stackPointer => some s.stack.length
    | .pc => some s.pc.toNat
    | .status => some s.status.toNat
    | .faultPc => some s.faultPc.toNat
    | .faultValue => some s.faultValue.toNat
  else none

end Sys2Proof.Machine
end

