-- ==== Sys2Proof/Machine/Engine.lean ====
section
/-! DEFINITION. The fetch-decode-execute cycle (R64 to R72), and how the host places an instruction. -/

namespace Sys2Proof.Machine

/-- One step of the engine (R64, R69): fetch and decode, then the arm of the instruction, or the fault that fetch raises.
In IDLE, HALTED and FAULTED it takes no step, and the state stays (R64, R108). -/
def engineStep (s : State) : Host.Outcome State Fault Refusal :=
  if s.runState.steps then
    match fetch s with
    | .ok i => exec i s
    | .error (k, value) => .next (s.raise k value)
  else .next s

/-- One step of the machine: a command of the host has a step of its own, and without one the engine has the step
(assumption 2). -/
def machineStep (s : State) : Host.Outcome State Fault Refusal :=
  match s.command with
  | .none => engineStep s.dropCommand
  | c => .next (s.dropCommand.obey c)

/-- The memory with the words of a list at consecutive addresses from `addr` on, as far as the memory goes. -/
def Memory.place (m : Memory) (addr : Nat) : List Word → Memory
  | [] => m
  | w :: ws => Memory.place (if addr < Config.memWords then m.writeWord addr w else m) (addr + 1) ws

/-- The state with an instruction's words at the pc, ready to be fetched in the next step: an engine that takes no step
is set RUNNING, as `start` does, and a step without a command comes first (assumption 10). -/
def State.placeInstr (s : State) (ws : List Word) : State :=
  { s with
    mem := s.mem.place s.pc.toNat ws
    runState := if s.runState.steps then s.runState else .running
    ports := { s.ports with commands := if s.command = .none then s.ports.commands else .none :: s.ports.commands } }

end Sys2Proof.Machine
end

