-- ==== Sys2Proof/Machine/Step.lean ====
section
/-! DEFINITION. One step of the machine. -/

namespace Sys2Proof.Machine

/-- One step (R2, R69, R118 to R120): a host command, or one instruction step of the engine. -/
def step (s : State) : Host.Outcome State Fault Refusal := machineStep s

/-- The state with the instruction whose bits are `w` at the pc, so that the next step fetches and runs it
(assumption 10). -/
def State.withFetchWord (s : State) (nbits w : Nat) : State := s.placeInstr (tableWords nbits w)

end Sys2Proof.Machine
end

