-- ==== Sys2Proof/Machine/Listing.lean ====
section
/-! DEFINITION. The assembler syntax and the listing line of R62: an instruction as text, and text as an instruction's
words. Text is a list of characters. Presentation only: nothing the machine does rests on this file (assumption 11). -/

namespace Sys2Proof.Machine

/-- The mnemonic of an opcode (R52), upper case. -/
def mnemonic (opcode : Nat) : List Char :=
  (["HALT", "SET", "PUSH", "POP", "EQ", "GT", "JMP", "JT", "JF", "ADD", "MULT", "MOD", "AND", "OR", "NOT", "RMEM", "WMEM",
    "CALL", "RET", "OUT", "IN", "NOOP"].getD opcode "").toList

/-- A digit of base 10 or 16, in capitals. -/
def digitText (d : Nat) : Char := Char.ofNat (if d < 10 then 48 + d else 55 + d)

/-- The last `places` digits of a number in a base, with leading zeros. -/
def paddedDigits (base : Nat) : Nat → Nat → List Char
  | 0, _ => []
  | places + 1, n => paddedDigits base places (n / base) ++ [digitText (n % base)]

/-- A `w16` in decimal. -/
def decimalText (n : Nat) : List Char :=
  match (paddedDigits 10 5 n).dropWhile (· == '0') with
  | [] => ['0']
  | ds => ds

/-- `0xHHHH` (R62). -/
def hexText (n : Nat) : List Char := '0' :: 'x' :: paddedDigits 16 4 n

/-- The literals that a C operand shows as a quoted character (R62, D35): 0x20 to 0x7E but for the quote and the
backslash. -/
def isQuoted (n : Nat) : Bool := 0x20 ≤ n && n ≤ 0x7E && n != 39 && n != 92

/-- An operand as text (R62). A word that is no operand is shown in hexadecimal. -/
def operandText (kind : Kind) (raw : Word) : List Char :=
  let n := raw.toNat
  if n < 32768 then
    match kind with
    | .address => '@' :: decimalText n
    | .char => if isQuoted n then [Char.ofNat 39, Char.ofNat n, Char.ofNat 39] else decimalText n
    | .value | .dest => decimalText n
  else if n < 32776 then ['r', 'e', 'g', digitText (n - 32768)]
  else hexText n

/-- Texts with a separator between them. -/
def joinText (sep : List Char) : List (List Char) → List Char
  | [] => []
  | [t] => t
  | t :: u :: rest => t ++ sep ++ joinText sep (u :: rest)

/-- `MNEMONIC OPERANDS` (R62). -/
def instrText (i : Instr) : List Char :=
  let operands := ((operandKinds i.opcode).getD []).zipWith operandText i.operands
  joinText [' '] (mnemonic i.opcode :: if operands.isEmpty then [] else [joinText [',', ' '] operands])

/-- The listing line of an instruction at an address (R62): the address, the words padded to four columns, and the
instruction. -/
def listingLine (addr : Nat) (i : Instr) : List Char :=
  let words := joinText [' '] ((encode i).map fun w => hexText w.toNat)
  paddedDigits 16 4 addr ++ [':', ' '] ++ words ++ List.replicate (27 - words.length) ' ' ++ [' ', ':', ' '] ++ instrText i

/-- The value of a digit of a base. -/
def digitValue? (base : Nat) (c : Char) : Option Nat :=
  let n := c.toNat
  let d := if 48 ≤ n && n ≤ 57 then n - 48 else if 65 ≤ n && n ≤ 70 then n - 55 else if 97 ≤ n && n ≤ 102 then n - 87 else 99
  if d < base then some d else none

/-- The number that digits spell, after a number `acc` already read. -/
def digitsValue? (base : Nat) : Nat → List Char → Option Nat
  | acc, [] => some acc
  | acc, c :: cs =>
    match digitValue? base c with
    | some d => digitsValue? base (acc * base + d) cs
    | none => none

/-- A literal (R62): `number := decimal | "0x" hex`, 0 to 32767. -/
def parseNumber : List Char → Option Word
  | [] => none
  | cs =>
    let value := match cs with
      | '0' :: 'x' :: h :: hs => digitsValue? 16 0 (h :: hs)
      | _ => digitsValue? 10 0 cs
    match value with
    | some n => if n < 32768 then some (BitVec.ofNat 16 n) else none
    | none => none

/-- A register reference (R62): `"reg" digit`, digit 0 to 7. -/
def parseRegister : List Char → Option Word
  | ['r', 'e', 'g', d] =>
    match digitValue? 8 d with
    | some n => some (BitVec.ofNat 16 (32768 + n))
    | none => none
  | _ => none

/-- The word of an operand of a kind (R62). R62 does not tie `number` to a kind, and the spec itself writes `SET 5, 1` (R81)
and `POP 100` (95_test_vectors.md M10). That a bare number stands for its word in a D position and, without `@`, in an A
position is the model's choice (assumption 11). -/
def parseOperand (kind : Kind) (text : List Char) : Option Word :=
  match parseRegister text with
  | some w => some w
  | none =>
    match kind, text with
    | .dest, t | .value, t => parseNumber t
    | .address, '@' :: t => parseNumber t
    | .address, t => parseNumber t
    | .char, [q, c, q'] =>
      if q.toNat == 39 && q'.toNat == 39 then
        if 0x20 ≤ c.toNat && c.toNat ≤ 0x7E then some (BitVec.ofNat 16 c.toNat) else none
      else parseNumber [q, c, q']
    | .char, t => parseNumber t

/-- The texts between the separators `", "` (R62). -/
def splitOperands : List Char → List (List Char)
  | [] => [[]]
  | ',' :: ' ' :: rest => [] :: splitOperands rest
  | c :: rest =>
    match splitOperands rest with
    | [] => [[c]]
    | t :: ts => (c :: t) :: ts

/-- The words of operands of the given kinds, one text each. -/
def parseOperands : List Kind → List (List Char) → Option (List Word)
  | [], [] => some []
  | k :: ks, t :: ts =>
    match parseOperand k t, parseOperands ks ts with
    | some w, some ws => some (w :: ws)
    | _, _ => none
  | _, _ => none

/-- The words of one instruction in assembler syntax (R62), without a label. -/
def assemble (text : List Char) : Option (List Word) :=
  let opcode := (List.range 22).find? fun n => mnemonic n == text.takeWhile (· != ' ')
  match opcode with
  | none => none
  | some op =>
    let operands := match text.dropWhile (· != ' ') with
      | [] => []
      | _ :: rest => splitOperands rest
    match parseOperands ((operandKinds op).getD []) operands with
    | some ws => some (BitVec.ofNat 16 op :: ws)
    | none => none

end Sys2Proof.Machine
end

