-- ==== Sys2Proof/Safety.lean ====
section
/-! DEFINITION. The terms in which claims about the machine are stated: how a run stands (R14), what a step may change
(R17, R26, R70, R105), and the invariant of the machine. -/

namespace Sys2Proof

/-- The operand kinds of an instruction (R52). -/
def Instr.kinds (i : Instr) : List Kind := (operandKinds i.opcode).getD []

/-- The register an instruction writes when it completes (R17): its D operand, if it has one. -/
def Instr.dest? : Instr → Option (Fin 8)
  | .set a _ | .pop a | .eq a _ _ | .gt a _ _ | .add a _ _ | .mult a _ _ | .mod a _ _ | .and a _ _ | .or a _ _ | .not a _
  | .rmem a _ | .inp a => Machine.destIndex? a
  | .halt | .push _ | .jmp _ | .jt _ _ | .jf _ _ | .wmem _ _ | .call _ | .ret | .out _ | .noop => none

/-- What an A or C operand word that is there can raise (R55, R107): nothing when it is taken raw. -/
def transferFaults (resolve : Bool) : List Machine.FaultKind := if resolve then [.invalidRegisterReference] else []

/-- The fault kinds of R107's table that an instruction's arm can raise, where `resolve` is `RESOLVE_TRANSFER_OPERANDS`: a
decode fault of an operand word that is there, or the arm's own check. (IllegalOpcode, and MemoryOutOfRange of the pc or of
an operand address, come before the arm.) -/
def Instr.armFaults (resolve : Bool) : Instr → List Machine.FaultKind
  | .halt | .noop => []
  | .ret => [.stackUnderflow]
  | .set _ _ | .eq _ _ _ | .gt _ _ _ | .add _ _ _ | .mult _ _ _ | .and _ _ _ | .or _ _ _ | .not _ _
  | .jt _ _ | .jf _ _ => [.invalidRegisterReference]
  | .mod _ _ _ => [.invalidRegisterReference, .divisionByZero]
  | .push _ => [.invalidRegisterReference, .stackOverflow]
  | .pop _ => [.invalidRegisterReference, .stackUnderflow]
  | .rmem _ _ | .wmem _ _ => [.invalidRegisterReference, .memoryOutOfRange]
  | .inp _ => [.invalidRegisterReference, .inputExhausted, .ioFailure]
  | .jmp _ => transferFaults resolve
  | .call _ => .stackOverflow :: transferFaults resolve
  | .out _ => .ioFailure :: transferFaults resolve

/-- The word address an instruction stores to (R35, R97): WMEM's resolved address operand. -/
def Instr.storeAddr? (s : Machine.State) : Instr → Option Nat
  | .wmem a _ => (s.value? a).map BitVec.toNat
  | _ => none

end Sys2Proof

namespace Sys2Proof.Machine

/-- The run has ended with success (R14, R72). -/
abbrev State.succeeded (s : State) : Prop := s.runState = .halted

/-- The run has ended with a fault (R14, R105). -/
abbrev State.failed (s : State) : Prop := s.runState = .faulted

/-- The engine waits for its host (R116). -/
abbrev State.waiting (s : State) : Prop := s.runState = .waitInput ∨ s.runState = .waitOutput

/-- The engine has the next step (R64): a run is in progress, and the host gives no command. -/
abbrev State.engineTurn (s : State) : Prop := s.command = .none ∧ s.runState.steps = true

/-- Every byte of the memory reads as before. -/
def SameMemory (s t : State) : Prop := ∀ n, t.mem.readByte n = s.mem.readByte n

/-- Every byte of the memory outside the word at word address `k` reads as before. -/
def SameMemoryBut (k : Nat) (s t : State) : Prop := ∀ n, n ≠ 2 * k → n ≠ 2 * k + 1 → t.mem.readByte n = s.mem.readByte n

/-- Every register is as before. -/
def SameRegs (s t : State) : Prop := ∀ r, t.reg r = s.reg r

/-- Every register but `d` is as before. -/
def SameRegsBut (d : Fin 8) (s t : State) : Prop := ∀ r, r ≠ d → t.reg r = s.reg r

/-- No host answer to IN is taken. -/
def NoInput (s t : State) : Prop := t.ports.inAnswers = s.ports.inAnswers ∧ t.ports.inDraws = s.ports.inDraws

/-- No host answer to OUT is taken, and nothing is emitted. -/
def NoOutput (s t : State) : Prop :=
  t.ports.outAnswers = s.ports.outAnswers ∧ t.ports.outDraws = s.ports.outDraws ∧ t.ports.output = s.ports.output

/-- One host answer to IN is taken (R101), in the form of assumption 3: the first of the listed answers, or, where none is
listed, one free answer. -/
def TakesInput (s t : State) : Prop :=
  (∀ a rest, s.ports.inAnswers = a :: rest → t.ports.inAnswers = rest ∧ t.ports.inDraws = s.ports.inDraws) ∧
  (s.ports.inAnswers = [] → t.ports.inAnswers = [] ∧ t.ports.inDraws = s.ports.inDraws + 1)

/-- One answer of the sink to OUT is taken (R100, R116), in the form of assumption 3. -/
def TakesSinkAnswer (s t : State) : Prop :=
  (∀ a rest, s.ports.outAnswers = a :: rest → t.ports.outAnswers = rest ∧ t.ports.outDraws = s.ports.outDraws) ∧
  (s.ports.outAnswers = [] → t.ports.outAnswers = [] ∧ t.ports.outDraws = s.ports.outDraws + 1)

/-- Nothing is fed (R114). -/
def NoFeed (s t : State) : Prop := t.ports.feed = s.ports.feed

/-- The address `a` is fed, once, if the feed is in use (R114). -/
def Fed (a : Word) (s t : State) : Prop :=
  t.ports.feed = if s.params.feedInUse then s.ports.feed ++ [a] else s.ports.feed

/-- The fault record (`STATUS.KIND`, `FAULT_PC`, `FAULT_VALUE`; R27, R28) is as before. -/
def SameFaultRecord (s t : State) : Prop := t.kind = s.kind ∧ t.faultPc = s.faultPc ∧ t.faultValue = s.faultValue

/-- What no instruction step changes: the parameters, and the commands the host is still to give. -/
def SameSurroundings (s t : State) : Prop := t.params = s.params ∧ t.ports.commands = s.ports.commands

/-- The trace record of the instruction `i`, run at `s`, is emitted if the trace is in use (R115). -/
def Traced (i : Instr) (s t : State) : Prop :=
  t.ports.trace =
    if s.params.traceInUse then
      s.ports.trace ++ [{ pc := s.pc, stackPointer := s.stack.length, regs := s.regs, instr := i }]
    else s.ports.trace

/-- A wait ends, and any other run state stays (R70). -/
def Resumes (s t : State) : Prop := (s.waiting → t.runState = .running) ∧ (¬ s.waiting → t.runState = s.runState)

/-- What the commit of the instruction `i` does whatever the instruction writes (R70, R115). -/
def Commits (i : Instr) (s t : State) : Prop :=
  Resumes s t ∧ SameFaultRecord s t ∧ SameSurroundings s t ∧ Traced i s t

/-- The pc moves on by `n` words, without wrapping (R20, R50). -/
def Advances (n : Nat) (s t : State) : Prop := s.pc.toNat < Config.memWords → t.pc.toNat = s.pc.toNat + n

/-- The instruction `i` of `n` words completes and changes nothing but its destination register `d` and the pc. -/
def WritesOnlyReg (i : Instr) (n : Nat) (d : Fin 8) (s t : State) : Prop :=
  Commits i s t ∧ Advances n s t ∧ SameRegsBut d s t ∧ SameMemory s t ∧ t.stack = s.stack ∧
    NoInput s t ∧ NoOutput s t ∧ NoFeed s t

/-- The instruction `i` completes and changes neither registers nor memory, and uses neither IN nor OUT. -/
def WritesNoRegOrMemory (i : Instr) (s t : State) : Prop :=
  Commits i s t ∧ SameRegs s t ∧ SameMemory s t ∧ NoInput s t ∧ NoOutput s t

/-- The step at `s` has raised `Fault(kind, value)` (R105): nothing of the step is written and nothing has left the
block, and the fault record tells the fault. -/
def FaultTaken (kind : FaultKind) (value : Word) (s t : State) : Prop :=
  t.mem = s.mem ∧ t.regs = s.regs ∧ t.stack = s.stack ∧ t.pc = s.pc ∧
    t.runState = .faulted ∧ t.kind = some kind ∧ t.faultPc = s.pc ∧ t.faultValue = value ∧
    t.ports.output = s.ports.output ∧ t.ports.feed = s.ports.feed ∧ t.ports.trace = s.ports.trace ∧
    SameSurroundings s t

/-- The step at `s` holds (R116): only `STATUS.STATE` shows the wait, and nothing has left the block. -/
def Held (wait : RunState) (s t : State) : Prop :=
  t.mem = s.mem ∧ t.regs = s.regs ∧ t.stack = s.stack ∧ t.pc = s.pc ∧ t.runState = wait ∧ SameFaultRecord s t ∧
    t.ports.output = s.ports.output ∧ t.ports.feed = s.ports.feed ∧ t.ports.trace = s.ports.trace ∧
    SameSurroundings s t

/-- The decode faults of an instruction's operand words (R57, R59): the first word, left to right, that its kind does not
accept raises InvalidRegisterReference. -/
def RejectsBadOperands (i : Instr) (s : State) : Prop :=
  ∀ w, firstRejected? s.params.resolveTransferOperands i.kinds i.operands = some w →
    ∃ t, exec i s = .next t ∧ FaultTaken .invalidRegisterReference w s t ∧ NoInput s t ∧ NoOutput s t

/-- The two states have the same block (R15) and the same parameters: they may differ in the host's side of the ports. -/
def SameBlock (s t : State) : Prop :=
  t.mem = s.mem ∧ t.regs = s.regs ∧ t.stack = s.stack ∧ t.pc = s.pc ∧ t.runState = s.runState ∧ SameFaultRecord s t

/-- Every field of the block has its reset value, and nothing is pending on the feed and the trace (R118). -/
def AtReset (t : State) : Prop :=
  (∀ k, k < Config.memWords → t.mem.read? k = some 0) ∧ (∀ r, t.reg r = 0) ∧ t.stack = [] ∧ t.pc = 0 ∧
    t.runState = .idle ∧ t.kind = none ∧ t.status = 0 ∧ t.faultPc = 0 ∧ t.faultValue = 0 ∧
    t.ports.feed = [] ∧ t.ports.trace = []

/-- The value that `FAULT_VALUE` may show for a fault kind (R104). -/
def faultValueFits (s : State) : FaultKind → Prop
  | .illegalOpcode => 22 ≤ s.faultValue.toNat
  | .invalidRegisterReference => s.faultValue.toNat < Config.regBase ∨ Config.regLimit ≤ s.faultValue.toNat
  | .memoryOutOfRange => Config.memWords ≤ s.faultValue.toNat
  | .stackOverflow => ∃ n, s.params.stackDepthMax = some n ∧ s.stack.length = n ∧ s.faultValue = capacityWord n
  | .stackUnderflow => s.faultValue = 0 ∧ s.stack = []
  | .inputExhausted | .divisionByZero | .ioFailure => s.faultValue = 0

/-- What holds in every state a run passes through. -/
structure State.Inv (s : State) : Prop where
  /-- The memory is in canonical form, inside its 32768 words (R34). -/
  memory : s.mem.wf
  /-- The stack holds at most `STACK_DEPTH_MAX` entries (R21). -/
  stackBound : ∀ n, s.params.stackDepthMax = some n → s.stack.length ≤ n
  /-- Before `start`, only the memory may differ from reset (R118, R119). -/
  idle : s.runState = .idle → s.regs = Vector.replicate 8 0 ∧ s.stack = [] ∧ s.pc = 0 ∧
    s.ports.output = [] ∧ s.ports.feed = [] ∧ s.ports.trace = []
  /-- A run that has halted stands one word past a HALT (R75, R80). -/
  halted : s.runState = .halted → 1 ≤ s.pc.toNat ∧ s.mem.read? (s.pc.toNat - 1) = some 0
  /-- A run that has faulted stands at the faulting instruction, and the record says so with a value that fits its kind
  (R104, R105). -/
  faulted : s.runState = .faulted → s.faultPc = s.pc ∧ ∃ k, s.kind = some k ∧ faultValueFits s k
  /-- Without a fault the record is as after reset (R118). -/
  noFault : s.runState ≠ .faulted → s.kind = none ∧ s.faultPc = 0 ∧ s.faultValue = 0
  /-- The engine waits for input only at an IN (R116). -/
  waitInput : s.runState = .waitInput → s.mem.read? s.pc.toNat = some 20
  /-- The engine waits for the sink only at an OUT (R116). -/
  waitOutput : s.runState = .waitOutput → s.mem.read? s.pc.toNat = some 19

end Sys2Proof.Machine
end

