-- ==== Sys2Proof/WellFormed.lean ====
section
/-! DEFINITION. Which instructions have only operand words that their kinds accept (R59), under the reading of address
and character operands that R55 gives this hardware. An ill-formed instruction is no gap: it runs, and faults with
InvalidRegisterReference. -/

namespace Sys2Proof

/-- A word that `resolve_value` accepts (R54): a literal or a register reference. -/
def Word.isOperand (w : Word) : Bool := w.toNat < Config.regLimit

/-- A word that `register_index` accepts (R56): a register reference. -/
def Word.isRegister (w : Word) : Bool := Config.regBase ≤ w.toNat && w.toNat < Config.regLimit

/-- Every operand word is one its kind accepts (R52, R59). -/
def Instr.wellFormed : Instr → Bool
  | .halt | .ret | .noop => true
  | .push a | .jmp a | .call a | .out a => a.isOperand
  | .pop a | .inp a => a.isRegister
  | .jt a b | .jf a b | .wmem a b => a.isOperand && b.isOperand
  | .set a b | .not a b | .rmem a b => a.isRegister && b.isOperand
  | .eq a b c | .gt a b c | .add a b c | .mult a b c | .mod a b c | .and a b c | .or a b c =>
    a.isRegister && b.isOperand && c.isOperand

end Sys2Proof
end

