-- ==== Sys2Proof/Certificates/Slice0/Obligations.lean ====
section
/-! DEFINITION. The statements for the provers. Their terms are in Safety.lean. -/

open Sys2Proof Sys2Proof.Machine

/-! ### Encoding -/

/-- R52 (with the worked words of R62, R81, R82, R84, R86, R90, R96, R98 and R100): one word sequence of each family. -/
def Obligations.OpcodeMapWordsDecode : Prop :=
  decode [0] = .ok .halt ∧
  decode [1, 32768, 123] = .ok (.set 32768 123) ∧
  decode [2, 7] = .ok (.push 7) ∧
  decode [4, 32769, 3, 3] = .ok (.eq 32769 3 3) ∧
  decode [6, 100] = .ok (.jmp 100) ∧
  decode [9, 32768, 32769, 4, 19] = .ok (.add 32768 32769 4) ∧
  decode [15, 32771, 100] = .ok (.rmem 32771 100) ∧
  decode [17, 100] = .ok (.call 100) ∧
  decode [19, 32768] = .ok (.out 32768) ∧
  decode [21] = .ok .noop

/-- R48, R52, R61: the decoder reads an instruction from exactly the word sequences that begin with its encoding, so
every bit of an instruction is kept and no word sequence is two instructions. An instruction here holds its operand words
whether or not their kinds accept them, as the model decodes them in the arm (assumption 8, DEDUCED). -/
def Obligations.DecodeIffBeginsWithEncoding : Prop :=
  ∀ (ws : List Word) (i : Instr), decode ws = .ok i ↔ ∃ rest, ws = encode i ++ rest

/-- R50, and of R57 and R59 what concerns the opcode and the number of words: the model's `decode` has no instruction
exactly when there is no word, when the opcode word is 22 or more, or when fewer operand words follow than the opcode
takes. The fourth failure of R57 and R59, an operand word that its kind does not accept, is not `decode`'s: the model leaves
it to the instruction's arm, and to the fetch where the words end early (assumption 8, DEDUCED); `RejectsBadOperands` and
`OperandPastTheMemoryFaults` state it there. -/
def Obligations.DecoderRejectsByName : Prop :=
  (∀ ws, decode ws = .error .noOpcodeWord ↔ ws = []) ∧
  (∀ op ws, decode (op :: ws) = .error (.illegalOpcode op) ↔ 22 ≤ op.toNat) ∧
  (∀ op ws kinds, operandKinds op.toNat = some kinds →
    (decode (op :: ws) = .error (.truncated kinds ws) ↔ ws.length < kinds.length))

/-- R62: the assembler reads the text of a well-formed instruction back as the instruction's words. The spelling of
operands is the model's choice where R62 leaves it open (assumption 11). -/
def Obligations.AssemblerReadsInstructionText : Prop :=
  ∀ i : Instr, i.wellFormed = true → assemble (instrText i) = some (encode i)

/-- R48: word `k` of an instruction written as one number is its bits `16 k + 15` to `16 k`, those from `nbits` on being 0, and
the decoder reads the number's instruction from its four words. The numbering is the opcode table's (assumption 8). -/
def Obligations.TableWordsAreTheirBits : Prop :=
  (∀ nbits w k j, j < 16 → (tableWord nbits w k).getLsbD j = (decide (16 * k + j < nbits) && w.testBit (16 * k + j))) ∧
  (∀ nbits w k, (tableWords nbits w)[k]? = if k < 4 then some (tableWord nbits w k) else none) ∧
  (∀ nbits w i, decodeTableWord nbits w = some i ↔ ∃ rest, tableWords nbits w = encode i ++ rest)

/-- The host's placing of one instruction: its words stand from the pc on, as far as the memory goes, the next step runs it
where it fits, and nothing else changes but that the engine runs and has the next step. It stands for a load and a start
(R119, R120), the model's choice (assumption 10). -/
def Obligations.PlacedInstructionRunsNext : Prop :=
  ∀ (s : State) (nbits w : Nat),
    let t := s.withFetchWord nbits w
    t.engineTurn ∧ (s.runState.steps = true → t.runState = s.runState) ∧ (s.runState.steps = false → t.runState = .running) ∧
    (∀ k, k < 4 → s.pc.toNat + k < 32768 → t.mem.readWord (s.pc.toNat + k) = tableWord nbits w k) ∧
    (∀ n, n < 2 * s.pc.toNat ∨ 2 * (s.pc.toNat + 4) ≤ n → t.mem.readByte n = s.mem.readByte n) ∧
    t = { s with mem := t.mem, runState := t.runState, ports := { s.ports with commands := t.ports.commands } } ∧
    ∀ i, decodeTableWord nbits w = some i → s.pc.toNat + i.length ≤ 32768 → step t = exec i t.dropCommand

/-! ### Operands -/

/-- R54 and R56: what a value operand and a destination operand decode to, by the class of their word. -/
def Obligations.OperandWordsDecodeByClass : Prop :=
  ∀ (s : State) (raw : Word),
    (raw.toNat < 32768 → s.value? raw = some raw ∧ destIndex? raw = none) ∧
    (∀ i : Fin 8, raw.toNat = 32768 + i.val → s.value? raw = some (s.reg i) ∧ destIndex? raw = some i) ∧
    (32776 ≤ raw.toNat → s.value? raw = none ∧ destIndex? raw = none)

/-- R55: an address or character operand decodes as a value operand with `RESOLVE_TRANSFER_OPERANDS` true, and is the raw
word with it false; true is the value for this hardware. -/
def Obligations.TransferOperandsFollowTheParameter : Prop :=
  (∀ (s : State) (raw : Word),
    (s.params.resolveTransferOperands = true → s.transfer? raw = s.value? raw) ∧
    (s.params.resolveTransferOperands = false → s.transfer? raw = some raw)) ∧
  State.reset.params.resolveTransferOperands = true

/-! ### Instructions: encoding, effect with frame, and decode faults -/

/-- R80: HALT. -/
def Obligations.HaltEndsTheRun : Prop :=
  ∀ s : State,
    encode .halt = [0] ∧
    ∃ t, exec .halt s = .next t ∧ t.runState = .halted ∧ Advances 1 s t ∧ SameRegs s t ∧ SameMemory s t ∧
      t.stack = s.stack ∧ SameFaultRecord s t ∧ SameSurroundings s t ∧ Traced .halt s t ∧
      NoInput s t ∧ NoOutput s t ∧ NoFeed s t

/-- R81: SET. -/
def Obligations.SetCopiesTheValue : Prop :=
  ∀ (a b : Word) (s : State),
    encode (.set a b) = [1, a, b] ∧
    (∀ d B, destIndex? a = some d → s.value? b = some B →
      ∃ t, exec (.set a b) s = .next t ∧ t.reg d = B ∧ WritesOnlyReg (.set a b) 3 d s t) ∧
    RejectsBadOperands (.set a b) s

/-- R82: PUSH. What `FAULT_VALUE` shows for a capacity of 65536 or more is a free value, the model's choice of form
(assumption 6). -/
def Obligations.PushAppendsTheValue : Prop :=
  ∀ (a : Word) (s : State),
    encode (.push a) = [2, a] ∧
    (∀ A, s.value? a = some A → (∀ n, s.params.stackDepthMax = some n → s.stack.length ≠ n) →
      ∃ t, exec (.push a) s = .next t ∧ t.stack = s.stack ++ [A] ∧ Advances 2 s t ∧ NoFeed s t ∧
        WritesNoRegOrMemory (.push a) s t) ∧
    (∀ A n, s.value? a = some A → s.params.stackDepthMax = some n → s.stack.length = n →
      ∃ t, exec (.push a) s = .next t ∧ FaultTaken .stackOverflow (capacityWord n) s t ∧ NoInput s t ∧ NoOutput s t) ∧
    RejectsBadOperands (.push a) s

/-- R83: POP. -/
def Obligations.PopMovesTheTopToTheRegister : Prop :=
  ∀ (a : Word) (s : State),
    encode (.pop a) = [3, a] ∧
    (∀ d v rest, destIndex? a = some d → s.stack = rest ++ [v] →
      ∃ t, exec (.pop a) s = .next t ∧ t.reg d = v ∧ t.stack = rest ∧ Commits (.pop a) s t ∧ Advances 2 s t ∧
        SameRegsBut d s t ∧ SameMemory s t ∧ NoInput s t ∧ NoOutput s t ∧ NoFeed s t) ∧
    (∀ d, destIndex? a = some d → s.stack = [] →
      ∃ t, exec (.pop a) s = .next t ∧ FaultTaken .stackUnderflow 0 s t ∧ NoInput s t ∧ NoOutput s t) ∧
    RejectsBadOperands (.pop a) s

/-- R84: EQ. -/
def Obligations.EqComparesWholeWords : Prop :=
  ∀ (a b c : Word) (s : State),
    encode (.eq a b c) = [4, a, b, c] ∧
    (∀ d B C, destIndex? a = some d → s.value? b = some B → s.value? c = some C →
      ∃ t, exec (.eq a b c) s = .next t ∧ t.reg d = (if B = C then 1 else 0) ∧ WritesOnlyReg (.eq a b c) 4 d s t) ∧
    RejectsBadOperands (.eq a b c) s

/-- R85: GT. -/
def Obligations.GtComparesUnsigned : Prop :=
  ∀ (a b c : Word) (s : State),
    encode (.gt a b c) = [5, a, b, c] ∧
    (∀ d B C, destIndex? a = some d → s.value? b = some B → s.value? c = some C →
      ∃ t, exec (.gt a b c) s = .next t ∧ t.reg d = (if B.toNat > C.toNat then 1 else 0) ∧
        WritesOnlyReg (.gt a b c) 4 d s t) ∧
    RejectsBadOperands (.gt a b c) s

/-- R86: JMP. -/
def Obligations.JmpGoesToTheTarget : Prop :=
  ∀ (a : Word) (s : State),
    encode (.jmp a) = [6, a] ∧
    (∀ A, s.transfer? a = some A →
      ∃ t, exec (.jmp a) s = .next t ∧ t.pc = A ∧ Fed A s t ∧ t.stack = s.stack ∧ WritesNoRegOrMemory (.jmp a) s t) ∧
    RejectsBadOperands (.jmp a) s

/-- R87: JT. -/
def Obligations.JtJumpsOnNonZero : Prop :=
  ∀ (a b : Word) (s : State),
    encode (.jt a b) = [7, a, b] ∧
    (∀ A B, s.value? a = some A → s.transfer? b = some B →
      ∃ t, exec (.jt a b) s = .next t ∧ t.stack = s.stack ∧ WritesNoRegOrMemory (.jt a b) s t ∧
        (A ≠ 0 → t.pc = B ∧ Fed B s t) ∧ (A = 0 → Advances 3 s t ∧ NoFeed s t)) ∧
    RejectsBadOperands (.jt a b) s

/-- R88: JF. -/
def Obligations.JfJumpsOnZero : Prop :=
  ∀ (a b : Word) (s : State),
    encode (.jf a b) = [8, a, b] ∧
    (∀ A B, s.value? a = some A → s.transfer? b = some B →
      ∃ t, exec (.jf a b) s = .next t ∧ t.stack = s.stack ∧ WritesNoRegOrMemory (.jf a b) s t ∧
        (A = 0 → t.pc = B ∧ Fed B s t) ∧ (A ≠ 0 → Advances 3 s t ∧ NoFeed s t)) ∧
    RejectsBadOperands (.jf a b) s

/-- R90: ADD. -/
def Obligations.AddWrapsModulo32768 : Prop :=
  ∀ (a b c : Word) (s : State),
    encode (.add a b c) = [9, a, b, c] ∧
    (∀ d B C, destIndex? a = some d → s.value? b = some B → s.value? c = some C →
      ∃ t, exec (.add a b c) s = .next t ∧ (t.reg d).toNat = (B.toNat + C.toNat) % 32768 ∧
        WritesOnlyReg (.add a b c) 4 d s t) ∧
    RejectsBadOperands (.add a b c) s

/-- R91: MULT. -/
def Obligations.MultWrapsModulo32768 : Prop :=
  ∀ (a b c : Word) (s : State),
    encode (.mult a b c) = [10, a, b, c] ∧
    (∀ d B C, destIndex? a = some d → s.value? b = some B → s.value? c = some C →
      ∃ t, exec (.mult a b c) s = .next t ∧ (t.reg d).toNat = B.toNat * C.toNat % 32768 ∧
        WritesOnlyReg (.mult a b c) 4 d s t) ∧
    RejectsBadOperands (.mult a b c) s

/-- R92: MOD. -/
def Obligations.ModIsTheUnsignedRemainder : Prop :=
  ∀ (a b c : Word) (s : State),
    encode (.mod a b c) = [11, a, b, c] ∧
    (∀ d B C, destIndex? a = some d → s.value? b = some B → s.value? c = some C → C ≠ 0 →
      ∃ t, exec (.mod a b c) s = .next t ∧ (t.reg d).toNat = B.toNat % C.toNat ∧ (t.reg d).toNat < C.toNat ∧
        WritesOnlyReg (.mod a b c) 4 d s t) ∧
    (∀ d B, destIndex? a = some d → s.value? b = some B → s.value? c = some 0 →
      ∃ t, exec (.mod a b c) s = .next t ∧ FaultTaken .divisionByZero 0 s t ∧ NoInput s t ∧ NoOutput s t) ∧
    RejectsBadOperands (.mod a b c) s

/-- R93: AND, bit by bit. -/
def Obligations.AndActsOnTheLow15Bits : Prop :=
  ∀ (a b c : Word) (s : State),
    encode (.and a b c) = [12, a, b, c] ∧
    (∀ d B C, destIndex? a = some d → s.value? b = some B → s.value? c = some C →
      ∃ t, exec (.and a b c) s = .next t ∧
        (∀ k, (t.reg d).getLsbD k = (decide (k < 15) && (B.getLsbD k && C.getLsbD k))) ∧
        WritesOnlyReg (.and a b c) 4 d s t) ∧
    RejectsBadOperands (.and a b c) s

/-- R94: OR, bit by bit. -/
def Obligations.OrActsOnTheLow15Bits : Prop :=
  ∀ (a b c : Word) (s : State),
    encode (.or a b c) = [13, a, b, c] ∧
    (∀ d B C, destIndex? a = some d → s.value? b = some B → s.value? c = some C →
      ∃ t, exec (.or a b c) s = .next t ∧
        (∀ k, (t.reg d).getLsbD k = (decide (k < 15) && (B.getLsbD k || C.getLsbD k))) ∧
        WritesOnlyReg (.or a b c) 4 d s t) ∧
    RejectsBadOperands (.or a b c) s

/-- R95: NOT. -/
def Obligations.NotComplements15Bits : Prop :=
  ∀ (a b : Word) (s : State),
    encode (.not a b) = [14, a, b] ∧
    (∀ d B, destIndex? a = some d → s.value? b = some B →
      ∃ t, exec (.not a b) s = .next t ∧ (t.reg d).toNat = 32767 - B.toNat % 32768 ∧ WritesOnlyReg (.not a b) 3 d s t) ∧
    RejectsBadOperands (.not a b) s

/-- R96: RMEM. -/
def Obligations.RmemReadsTheWord : Prop :=
  ∀ (a b : Word) (s : State),
    encode (.rmem a b) = [15, a, b] ∧
    (∀ d B, destIndex? a = some d → s.value? b = some B → B.toNat < 32768 →
      ∃ t, exec (.rmem a b) s = .next t ∧ t.reg d = s.mem.readWord B.toNat ∧ WritesOnlyReg (.rmem a b) 3 d s t) ∧
    (∀ d B, destIndex? a = some d → s.value? b = some B → 32768 ≤ B.toNat →
      ∃ t, exec (.rmem a b) s = .next t ∧ FaultTaken .memoryOutOfRange B s t ∧ NoInput s t ∧ NoOutput s t) ∧
    RejectsBadOperands (.rmem a b) s

/-- R97: WMEM. -/
def Obligations.WmemWritesTheWord : Prop :=
  ∀ (a b : Word) (s : State),
    encode (.wmem a b) = [16, a, b] ∧
    (∀ A B, s.value? a = some A → s.value? b = some B → A.toNat < 32768 →
      ∃ t, exec (.wmem a b) s = .next t ∧ t.mem.readWord A.toNat = B ∧ SameMemoryBut A.toNat s t ∧
        Commits (.wmem a b) s t ∧ Advances 3 s t ∧ SameRegs s t ∧ t.stack = s.stack ∧
        NoInput s t ∧ NoOutput s t ∧ NoFeed s t) ∧
    (∀ A B, s.value? a = some A → s.value? b = some B → 32768 ≤ A.toNat →
      ∃ t, exec (.wmem a b) s = .next t ∧ FaultTaken .memoryOutOfRange A s t ∧ NoInput s t ∧ NoOutput s t) ∧
    RejectsBadOperands (.wmem a b) s

/-- R98: CALL. The return address is `pc + 2`, for every pc an instruction is fetched at. What `FAULT_VALUE` shows for a
capacity of 65536 or more is a free value, the model's choice of form (assumption 6). -/
def Obligations.CallPushesTheReturnAddress : Prop :=
  ∀ (a : Word) (s : State), s.pc.toNat < 32768 →
    encode (.call a) = [17, a] ∧
    (∀ A, s.transfer? a = some A → (∀ n, s.params.stackDepthMax = some n → s.stack.length ≠ n) →
      ∃ t v, exec (.call a) s = .next t ∧ t.stack = s.stack ++ [v] ∧ v.toNat = s.pc.toNat + 2 ∧ t.pc = A ∧ Fed A s t ∧
        WritesNoRegOrMemory (.call a) s t) ∧
    (∀ A n, s.transfer? a = some A → s.params.stackDepthMax = some n → s.stack.length = n →
      ∃ t, exec (.call a) s = .next t ∧ FaultTaken .stackOverflow (capacityWord n) s t ∧ NoInput s t ∧ NoOutput s t) ∧
    RejectsBadOperands (.call a) s

/-- R99: RET. -/
def Obligations.RetGoesToThePoppedWord : Prop :=
  ∀ s : State,
    encode .ret = [18] ∧
    (∀ v rest, s.stack = rest ++ [v] →
      ∃ t, exec .ret s = .next t ∧ t.stack = rest ∧ t.pc = v ∧ Fed v s t ∧ WritesNoRegOrMemory .ret s t) ∧
    (s.stack = [] →
      ∃ t, exec .ret s = .next t ∧ FaultTaken .stackUnderflow 0 s t ∧ NoInput s t ∧ NoOutput s t)

/-- R100: OUT, by the host's answer, of which one is taken. How answers are listed and taken is the model's choice
(assumption 3). -/
def Obligations.OutEmitsTheWholeWord : Prop :=
  ∀ (a : Word) (s : State),
    encode (.out a) = [19, a] ∧
    (∀ A, s.transfer? a = some A → s.ports.outAnswer = .accept →
      ∃ t, exec (.out a) s = .next t ∧ t.ports.output = s.ports.output ++ [A] ∧ Commits (.out a) s t ∧ Advances 2 s t ∧
        SameRegs s t ∧ SameMemory s t ∧ t.stack = s.stack ∧ TakesSinkAnswer s t ∧ NoInput s t ∧ NoFeed s t) ∧
    (∀ A, s.transfer? a = some A → s.ports.outAnswer = .fail →
      ∃ t, exec (.out a) s = .next t ∧ FaultTaken .ioFailure 0 s t ∧ TakesSinkAnswer s t ∧ NoInput s t) ∧
    (∀ A, s.transfer? a = some A → s.ports.outAnswer = .none →
      ∃ t, exec (.out a) s = .next t ∧ Held .waitOutput s t ∧ TakesSinkAnswer s t ∧ NoInput s t) ∧
    RejectsBadOperands (.out a) s

/-- R101: IN, by the host's answer, of which one is taken, so that no later IN reads the same byte. A bad destination takes
no answer. How answers are listed and taken is the model's choice (assumption 3). -/
def Obligations.InReceivesOneByte : Prop :=
  ∀ (a : Word) (s : State),
    encode (.inp a) = [20, a] ∧
    (∀ d b, destIndex? a = some d → s.ports.inAnswer = .byte b →
      ∃ t, exec (.inp a) s = .next t ∧ (t.reg d).toNat = b.toNat ∧ Commits (.inp a) s t ∧ Advances 2 s t ∧
        SameRegsBut d s t ∧ SameMemory s t ∧ t.stack = s.stack ∧ TakesInput s t ∧ NoOutput s t ∧ NoFeed s t) ∧
    (∀ d, destIndex? a = some d → s.ports.inAnswer = .eof →
      ∃ t, exec (.inp a) s = .next t ∧ FaultTaken .inputExhausted 0 s t ∧ TakesInput s t ∧ NoOutput s t) ∧
    (∀ d, destIndex? a = some d → s.ports.inAnswer = .fail →
      ∃ t, exec (.inp a) s = .next t ∧ FaultTaken .ioFailure 0 s t ∧ TakesInput s t ∧ NoOutput s t) ∧
    (∀ d, destIndex? a = some d → s.ports.inAnswer = .none →
      ∃ t, exec (.inp a) s = .next t ∧ Held .waitInput s t ∧ TakesInput s t ∧ NoOutput s t) ∧
    RejectsBadOperands (.inp a) s

/-- R102: NOOP. -/
def Obligations.NoopOnlyAdvances : Prop :=
  ∀ s : State,
    encode .noop = [21] ∧
    ∃ t, exec .noop s = .next t ∧ Advances 1 s t ∧ t.stack = s.stack ∧ NoFeed s t ∧ WritesNoRegOrMemory .noop s t

/-! ### Frames over all instructions -/

/-- R17: an instruction writes at most one register, its destination. -/
def Obligations.OnlyTheDestinationRegisterChanges : Prop :=
  ∀ (i : Instr) (s t : State), exec i s = .next t → ∀ r, i.dest? ≠ some r → t.reg r = s.reg r

/-- R35: no instruction but WMEM writes memory, and WMEM only the word at its address operand. -/
def Obligations.OnlyWmemWritesMemory : Prop :=
  ∀ (i : Instr) (s t : State), exec i s = .next t →
    (i.storeAddr? s = none → SameMemory s t) ∧ (∀ k, i.storeAddr? s = some k → SameMemoryBut k s t)

/-- R21 to R24: PUSH and CALL may append one entry, POP and RET may remove the top one, no other instruction touches the
stack, and no entry below the top ever changes. -/
def Obligations.StackChangesOnlyAtTheTop : Prop :=
  ∀ (i : Instr) (s t : State), exec i s = .next t →
    match i with
    | .push _ | .call _ => t.stack = s.stack ∨ ∃ v, t.stack = s.stack ++ [v]
    | .pop _ | .ret => t.stack = s.stack ∨ ∃ v, s.stack = t.stack ++ [v]
    | _ => t.stack = s.stack

/-- R26, R27, R70: no instruction changes the parameters or the commands of the host; the fault record changes only with a
fault; only IN takes an answer to IN, and only OUT takes an answer to OUT and emits. -/
def Obligations.InstructionsLeaveControlStateAlone : Prop :=
  ∀ (i : Instr) (s t : State), exec i s = .next t →
    SameSurroundings s t ∧ (t.runState ≠ .faulted → SameFaultRecord s t) ∧
    ((∀ a, i ≠ .inp a) → NoInput s t) ∧ ((∀ a, i ≠ .out a) → NoOutput s t)

/-- R114: an address is fed exactly for a transfer that is taken, it is the address the run goes on at, and it is fed
once, in program order. -/
def Obligations.FeedCarriesExactlyTheTakenTransfers : Prop :=
  ∀ (i : Instr) (s t : State), exec i s = .next t →
    let taken : Bool :=
      t.runState != .faulted &&
      match i with
      | .jmp _ | .call _ | .ret => true
      | .jt a _ => s.value? a != some 0
      | .jf a _ => s.value? a == some 0
      | _ => false
    s.runState.steps = true → t.ports.feed = if s.params.feedInUse && taken then s.ports.feed ++ [t.pc] else s.ports.feed

/-- R107: the fault kinds that an instruction's arm can raise under each value of `RESOLVE_TRANSFER_OPERANDS`; with it
false, JT and JF raise theirs only for the value operand. -/
def Obligations.FaultKindsByInstruction : Prop :=
  ∀ (i : Instr) (s t : State), exec i s = .next t → s.runState.steps = true → t.failed →
    (∃ kind ∈ i.armFaults s.params.resolveTransferOperands, t.kind = some kind) ∧
    (s.params.resolveTransferOperands = false → ∀ a b, i = .jt a b ∨ i = .jf a b → s.value? a = none)

/-! ### Fetch, faults and sequencing -/

/-- R64, R66, R69: where the words at the pc are those of an instruction, the engine's step runs it: it is `exec` of that
instruction, once this step's (empty) command has been dropped. That commands have steps of their own is the model's choice
(assumption 2). -/
def Obligations.StepRunsTheDecodedInstruction : Prop :=
  ∀ (i : Instr) (s : State), s.engineTurn →
    (∀ k w, (encode i)[k]? = some w → s.mem.read? (s.pc.toNat + k) = some w) → step s = exec i s.dropCommand

/-- R65: a fetch at a pc of 32768 or more raises MemoryOutOfRange of the pc, with `FAULT_PC` the pc, and at any other pc
the first word fetched is the memory word at the pc. -/
def Obligations.FetchPastTheMemoryFaults : Prop :=
  (∀ s : State, s.engineTurn → 32768 ≤ s.pc.toNat →
    ∃ t, step s = .next t ∧ FaultTaken .memoryOutOfRange s.pc s.dropCommand t ∧ NoInput s t ∧ NoOutput s t) ∧
  ∀ s : State, s.pc.toNat < 32768 → (fetchWindow s.mem s.pc.toNat).head? = some (s.mem.readWord s.pc.toNat)

/-- R49: the opcode is the whole word at the pc, taken raw; a word that is not 0 to 21 raises IllegalOpcode. -/
def Obligations.UnknownOpcodeFaults : Prop :=
  ∀ (s : State) (op : Word), s.engineTurn → s.mem.read? s.pc.toNat = some op → 22 ≤ op.toNat →
    ∃ t, step s = .next t ∧ FaultTaken .illegalOpcode op s.dropCommand t ∧ NoInput s t ∧ NoOutput s t

/-- R57, R110: an instruction whose operand words run past address 32767 faults with its first bad operand word before the
end, left to right, or else with MemoryOutOfRange of the address 32768, and takes no answer of the host. -/
def Obligations.OperandPastTheMemoryFaults : Prop :=
  ∀ (s : State) (op : Word) (kinds : List Kind), s.engineTurn → s.mem.read? s.pc.toNat = some op →
    operandKinds op.toNat = some kinds → 32768 ≤ s.pc.toNat + kinds.length →
    let present := (List.range (32767 - s.pc.toNat)).map fun k => s.mem.readWord (s.pc.toNat + 1 + k)
    ∃ t, step s = .next t ∧ NoInput s t ∧ NoOutput s t ∧
      match firstRejected? s.params.resolveTransferOperands kinds present with
      | some raw => FaultTaken .invalidRegisterReference raw s.dropCommand t
      | none => FaultTaken .memoryOutOfRange 32768 s.dropCommand t

/-- R105, R106: whatever step ends a run with a fault, the memory, the registers, the stack and the pc are those of the
start of the step, the record names the fault, and nothing has left the block. -/
def Obligations.EveryFaultIsPrecise : Prop :=
  ∀ s t : State, s.engineTurn → step s = .next t → t.failed →
    ∃ kind, FaultTaken kind t.faultValue s.dropCommand t

/-- R116: a step that holds changes no memory, register, stack entry or pc, and the engine then fetches the same
instruction again. -/
def Obligations.HoldIsTakenAgain : Prop :=
  ∀ s t : State, s.engineTurn → step s = .next t → t.waiting →
    Held t.runState s.dropCommand t ∧ t.runState.steps = true ∧ fetch t = fetch s

/-- R72, R105: every step of the machine answers a next state: no step is refused, and no error stops it outside its state.
That every error is a next state is the model's reading (assumption 7). -/
def Obligations.EveryStepAnswersANextState : Prop :=
  (∀ (i : Instr) (s : State), ∃ t, exec i s = .next t) ∧ ∀ s : State, ∃ t, step s = .next t

/-- R64, R108, R119, R120: HALTED and FAULTED are final until `reset`, which clears the fault record. That a step with another
command only drops it is the model's choice (assumption 2), and that a step without one answers the same state is its
reading (assumption 7). -/
def Obligations.EndedRunsAreFinalUntilReset : Prop :=
  ∀ s : State, s.succeeded ∨ s.failed →
    (s.command ≠ .reset → step s = .next s.dropCommand) ∧
    (s.command = .reset →
      ∃ t, step s = .next t ∧ t.runState = .idle ∧ t.kind = none ∧ t.faultPc = 0 ∧ t.faultValue = 0)

/-! ### Reset, load, start and the host's view -/

/-- R118: the state after reset, as the model's `State.reset` and as the `reset` port leaves it. That the port's command has
a step of its own and keeps the parameters is the model's choice (assumptions 2 and 4). -/
def Obligations.ResetGivesEveryFieldItsValue : Prop :=
  AtReset State.reset ∧ ∀ s : State, s.command = .reset → ∃ t, step s = .next t ∧ AtReset t ∧ t.params = s.params

/-- R119, R120: `load` writes one memory word and `start` sets RUNNING, in IDLE; in every other state both are ignored.
That a command has a step of its own is the model's choice (assumption 2). -/
def Obligations.LoadAndStartActOnlyInIdle : Prop :=
  ∀ s : State,
    (s.command = .start → s.runState = .idle → step s = .next { s.dropCommand with runState := .running }) ∧
    (s.command = .start → s.runState ≠ .idle → step s = .next s.dropCommand) ∧
    (∀ addr data, s.command = .load addr data → s.runState = .idle →
      ∃ t, step s = .next t ∧ t.mem.read? addr.toNat = some data ∧ SameMemoryBut addr.toNat s t ∧
        t = { s.dropCommand with mem := t.mem }) ∧
    (∀ addr data, s.command = .load addr data → s.runState ≠ .idle → step s = .next s.dropCommand)

/-- R38, R119: an image is its words in little-endian bytes: an odd number of bytes is refused, and any even number is read. -/
def Obligations.ImageIsLittleEndianWords : Prop :=
  (∀ ws : List Word, imageWords (ws.flatMap fun w => [w.lowByte, w.highByte]) = some ws) ∧
  (∀ bytes : List Byte, bytes.length % 2 = 1 → imageWords bytes = none) ∧
  (∀ bytes : List Byte, bytes.length % 2 = 0 → ∃ ws, imageWords bytes = some ws ∧ 2 * ws.length = bytes.length) ∧
  (∀ (bytes : List Byte) (ws : List Word), imageWords bytes = some ws → ∀ k w, ws[k]? = some w →
    ∃ lo hi, bytes[2 * k]? = some lo ∧ bytes[2 * k + 1]? = some hi ∧ w.toNat = lo.toNat + 256 * hi.toNat)

/-- R118 to R122: the loader accepts exactly the images of whole words, at most 32768 of them; and whatever state the
machine is in, giving it the boot commands of such an image, one a step, leaves it RUNNING at pc 0 with the image's words at
addresses 0 on, 0 everywhere else, and every register 0. That each command has a step, and the order of the loads, are the
model's choice (assumptions 2 and 10). -/
def Obligations.BootLoadsTheImageAndStarts : Prop :=
  (∀ image : List Byte, (bootCommands image).isSome = true ↔ ∃ ws, imageWords image = some ws ∧ ws.length ≤ 32768) ∧
  ∀ (image : List Byte) (ws : List Word) (cmds : List HostCommand) (s : State),
    imageWords image = some ws → bootCommands image = some cmds → s.ports.commands = cmds →
    ∃ t, core.run cmds.length s = .next t ∧ t.runState = .running ∧ t.pc = 0 ∧ t.stack = [] ∧ (∀ r, t.reg r = 0) ∧
      t.kind = none ∧ ∀ k, k < 32768 → t.mem.readWord k = ws.getD k 0

/-- R27, R104: the fields of `STATUS`: the codes that STATE (bits 2:0) and KIND (bits 7:3) show for the run states and the
fault kinds; with KIND at most 8, the reserved bits 15:8 read 0. -/
def Obligations.StatusCodesAreTheTable : Prop :=
  ∀ s : State,
    (s.runState = .idle → s.status.toNat % 8 = 0) ∧ (s.runState = .running → s.status.toNat % 8 = 1) ∧
    (s.runState = .halted → s.status.toNat % 8 = 2) ∧ (s.runState = .faulted → s.status.toNat % 8 = 3) ∧
    (s.runState = .waitInput → s.status.toNat % 8 = 4) ∧ (s.runState = .waitOutput → s.status.toNat % 8 = 5) ∧
    (s.kind = none → s.status.toNat / 8 = 0) ∧ (s.kind = some .illegalOpcode → s.status.toNat / 8 = 1) ∧
    (s.kind = some .invalidRegisterReference → s.status.toNat / 8 = 2) ∧
    (s.kind = some .stackUnderflow → s.status.toNat / 8 = 3) ∧
    (s.kind = some .memoryOutOfRange → s.status.toNat / 8 = 4) ∧
    (s.kind = some .inputExhausted → s.status.toNat / 8 = 5) ∧
    (s.kind = some .divisionByZero → s.status.toNat / 8 = 6) ∧
    (s.kind = some .stackOverflow → s.status.toNat / 8 = 7) ∧ (s.kind = some .ioFailure → s.status.toNat / 8 = 8)

/-- R31, R32: the host may inspect exactly when no run is in progress, and sees every field of the state tuple of R15 as it
is. That it counts stack entries from the bottom is the model's choice (assumption 12). -/
def Obligations.InspectionShowsTheState : Prop :=
  ∀ s : State,
    (s.runState.steps = true → ∀ q, s.inspect q = none) ∧
    (s.runState.steps = false →
      (∀ addr, s.inspect (.memWord addr) = (s.mem.read? addr.toNat).map BitVec.toNat) ∧
      (∀ r, s.inspect (.register r) = some (s.reg r).toNat) ∧
      (∀ n, s.inspect (.stackEntry n) = s.stack[n]?.map BitVec.toNat) ∧
      s.inspect .stackPointer = some s.stack.length ∧ s.inspect .pc = some s.pc.toNat ∧
      s.inspect .status = some s.status.toNat ∧ s.inspect .faultPc = some s.faultPc.toNat ∧
      s.inspect .faultValue = some s.faultValue.toNat)

/-! ### The whole machine -/

/-- The invariant holds after reset. -/
def Obligations.InvariantHoldsAtReset : Prop := State.reset.Inv

/-- R21, R34, R75, R104, R105, R116, R118, R119: every step, of the engine or of the host, keeps the invariant. -/
def Obligations.EveryStepKeepsTheInvariant : Prop :=
  ∀ s t : State, s.Inv → step s = .next t → t.Inv

/-- R74: the step is a function of the block and of the host's answers: two machines with the same block and parameters,
whose hosts give the same command and the same answers in this step, go on to the same block, whatever else differs. -/
def Obligations.OnlyTheHostsAnswersAreFreeInputs : Prop :=
  ∀ s s' t t' : State, SameBlock s s' → s'.params = s.params → s'.command = s.command →
    s'.ports.inAnswer = s.ports.inAnswer → s'.ports.outAnswer = s.ports.outAnswer →
    step s = .next t → step s' = .next t' → SameBlock t t'

/-- R114, R115: the feed and the trace change no state: whether they are in use makes no difference to the block, to the
output, or to what the host still has to give. -/
def Obligations.OptionalOutputsChangeNoState : Prop :=
  ∀ (s t t' : State) (feed trace : Bool),
    step s = .next t →
    step { s with params := { s.params with feedInUse := feed, traceInUse := trace } } = .next t' →
    SameBlock t t' ∧
      t'.ports = { t.ports with feed := t'.ports.feed, trace := t'.ports.trace }

/-- R76: where an instruction stands changes nothing of what it does, but for the pc, the return address of CALL, and the
places that tell the pc. -/
def Obligations.EffectsDoNotDependOnThePlace : Prop :=
  ∀ (i : Instr) (s t t' : State) (q : Word), exec i s = .next t → exec i { s with pc := q } = .next t' →
    t'.mem = t.mem ∧ t'.regs = t.regs ∧ t'.runState = t.runState ∧ t'.kind = t.kind ∧
      t'.ports.output = t.ports.output ∧ t'.ports.feed = t.ports.feed ∧
      t'.stack.length = t.stack.length ∧ ((∀ a, i ≠ .call a) → t'.stack = t.stack) ∧
      (t'.pc = t.pc ∨ t'.pc - q = t.pc - s.pc)

/-- R98, R99: a CALL and then, with the stack as CALL left it, a RET come back to the word after the CALL. -/
def Obligations.RetReturnsAfterTheCall : Prop :=
  ∀ (a A : Word) (s t u : State), s.pc.toNat < 32768 → s.transfer? a = some A →
    exec (.call a) s = .next t → ¬ t.failed → u.stack = t.stack →
    ∃ v, exec .ret u = .next v ∧ v.pc.toNat = s.pc.toNat + 2 ∧ v.stack = s.stack

/-- R44, R97: the word WMEM wrote is what RMEM of that address reads in any later state with that memory, and what a fetch
there reads (R46). -/
def Obligations.WrittenWordIsReadAndFetched : Prop :=
  ∀ (a b A B c e : Word) (d : Fin 8) (s t u : State), s.value? a = some A → s.value? b = some B → A.toNat < 32768 →
    exec (.wmem a b) s = .next t → u.mem = t.mem → destIndex? c = some d → u.value? e = some A →
    (∃ v, exec (.rmem c e) u = .next v ∧ v.reg d = B) ∧ (fetchWindow u.mem A.toNat).head? = some B

/-- R34, R44: two memories in canonical form that read alike at every word are the same data, so equality of states is
equality of what can be read. The form is the model's choice (assumption 1). -/
def Obligations.CanonicalMemoriesThatReadAlikeAreEqual : Prop :=
  ∀ m m' : Memory, m.wf → m'.wf → (∀ k, k < 32768 → m.read? k = m'.read? k) → m = m'
end

