-- ==== Sys2Proof/Laws/Memory.lean ====
section
/-! SUPPORT. The memory: read after write on bytes and on words, and that every operation keeps the canonical form. -/

namespace Sys2Proof.Machine

/-! ### Bytes -/

/-- A cell that is not listed reads as 0. -/
theorem Memory.readByte_eq_zero {m : Memory} {n : Nat} (h : ∀ c ∈ m, c.1 ≠ n) : m.readByte n = 0 := by
  induction m with
  | nil => rfl
  | cons c rest ih =>
    simp only [List.mem_cons, forall_eq_or_imp] at h
    simp [Memory.readByte, h.1, ih h.2]

theorem Memory.readByte_eraseByte (m : Memory) (n a : Nat) :
    (m.eraseByte n).readByte a = if a = n then 0 else m.readByte a := by
  induction m with
  | nil => simp [Memory.eraseByte, Memory.readByte]
  | cons c rest ih =>
    obtain ⟨k, u⟩ := c
    simp only [Memory.eraseByte] at ih
    by_cases hk : k = n <;> by_cases ha : k = a <;> simp_all [Memory.eraseByte, Memory.readByte]

theorem Memory.readByte_insertByte {m : Memory} {n : Nat} (h : ∀ c ∈ m, c.1 ≠ n) (v : Byte) (a : Nat) :
    (m.insertByte n v).readByte a = if a = n then v else m.readByte a := by
  induction m with
  | nil => simp [Memory.insertByte, Memory.readByte, eq_comm]
  | cons c rest ih =>
    obtain ⟨k, u⟩ := c
    simp only [List.mem_cons, forall_eq_or_imp] at h
    have hk : k ≠ n := h.1
    by_cases hlt : n < k
    · simp [Memory.insertByte, Memory.readByte, hlt, eq_comm]
    · simp only [Memory.insertByte, Memory.readByte, if_neg hlt, ih h.2]
      by_cases ha : k = a
      · simp [ha, ha ▸ hk]
      · simp [ha]

theorem Memory.eraseByte_no_cell (m : Memory) (n : Nat) : ∀ c ∈ m.eraseByte n, c.1 ≠ n := by
  intro c hc
  simpa using (List.mem_filter.mp hc).2

/-- Read after write of a byte: the value written there, and everything else as it was. -/
theorem Memory.readByte_writeByte (m : Memory) (n : Nat) (v : Byte) (a : Nat) :
    (m.writeByte n v).readByte a = if a = n then v else m.readByte a := by
  by_cases hv : v = 0
  · subst hv
    simp [Memory.writeByte, Memory.readByte_eraseByte]
  · rw [Memory.writeByte, if_neg hv, Memory.readByte_insertByte (Memory.eraseByte_no_cell m n),
      Memory.readByte_eraseByte]
    split <;> rfl

/-! ### Words -/

/-- The value of a word made of two bytes (R38). -/
theorem Word.toNat_ofBytes (lo hi : Byte) : (Word.ofBytes lo hi).toNat = lo.toNat + 256 * hi.toNat := by
  have := lo.isLt
  have := hi.isLt
  simp only [Word.ofBytes, BitVec.toNat_ofNat]
  omega

@[simp] theorem Word.lowByte_ofBytes (lo hi : Byte) : (Word.ofBytes lo hi).lowByte = lo := by
  have := lo.isLt
  apply BitVec.eq_of_toNat_eq
  simp only [Word.lowByte, Word.toNat_ofBytes, BitVec.toNat_ofNat]
  omega

@[simp] theorem Word.highByte_ofBytes (lo hi : Byte) : (Word.ofBytes lo hi).highByte = hi := by
  have := lo.isLt
  have := hi.isLt
  apply BitVec.eq_of_toNat_eq
  simp only [Word.highByte, Word.toNat_ofBytes, BitVec.toNat_ofNat]
  omega

@[simp] theorem Word.ofBytes_bytes (w : Word) : Word.ofBytes w.lowByte w.highByte = w := by
  have := w.isLt
  apply BitVec.eq_of_toNat_eq
  simp only [Word.lowByte, Word.highByte, Word.toNat_ofBytes, BitVec.toNat_ofNat]
  omega

/-- Which byte a word write puts where. -/
theorem Memory.readByte_writeWord (m : Memory) (k : Nat) (w : Word) (n : Nat) :
    (m.writeWord k w).readByte n =
      if n = 2 * k then w.lowByte else if n = 2 * k + 1 then w.highByte else m.readByte n := by
  rw [Memory.writeWord, Memory.readByte_writeByte, Memory.readByte_writeByte]
  by_cases h : n = 2 * k
  · simp [h]
  · simp [h]

/-- Read after write of a word (R44): the word written there, and every other word as it was. -/
theorem Memory.readWord_writeWord (m : Memory) (k : Nat) (w : Word) (a : Nat) :
    (m.writeWord k w).readWord a = if a = k then w else m.readWord a := by
  simp only [Memory.readWord, Memory.readByte_writeWord]
  by_cases h : a = k
  · simp [h]
  · have h1 : ¬ 2 * a = 2 * k := by omega
    have h2 : ¬ 2 * a = 2 * k + 1 := by omega
    have h3 : ¬ 2 * a + 1 = 2 * k := by omega
    simp [h, h1, h2, h3]

/-! ### The canonical form -/

theorem Memory.wf_nil : Memory.wf [] := by simp [Memory.wf]

theorem Memory.wf_eraseByte {m : Memory} (h : m.wf) (n : Nat) : (m.eraseByte n).wf :=
  ⟨h.1.filter _, fun c hc => h.2 c (List.mem_filter.mp hc).1⟩

theorem Memory.mem_insertByte {m : Memory} {n : Nat} {v : Byte} {c : Host.Cell} (h : c ∈ m.insertByte n v) :
    c = (n, v) ∨ c ∈ m := by
  induction m with
  | nil => simpa [Memory.insertByte] using h
  | cons d rest ih =>
    simp only [Memory.insertByte] at h
    split at h
    · simpa using h
    · rcases List.mem_cons.mp h with rfl | h
      · simp
      · rcases ih h with h | h <;> simp [h]

theorem Memory.wf_insertByte {m : Memory} (h : m.wf) {n : Nat} (hn : n < 2 * Config.memWords)
    (hno : ∀ c ∈ m, c.1 ≠ n) {v : Byte} (hv : v ≠ 0) : (m.insertByte n v).wf := by
  refine ⟨?_, fun c hc => ?_⟩
  · obtain ⟨hp, -⟩ := h
    induction m with
    | nil => simp [Memory.insertByte]
    | cons d rest ih =>
      obtain ⟨k, u⟩ := d
      rw [List.pairwise_cons] at hp
      simp only [List.mem_cons, forall_eq_or_imp] at hno
      simp only [Memory.insertByte]
      split
      · rename_i hlt
        refine List.pairwise_cons.mpr ⟨fun c hc => ?_, List.pairwise_cons.mpr hp⟩
        rcases List.mem_cons.mp hc with rfl | hc
        · exact hlt
        · exact Nat.lt_trans hlt (hp.1 c hc)
      · rename_i hlt
        refine List.pairwise_cons.mpr ⟨fun c hc => ?_, ih hno.2 hp.2⟩
        rcases Memory.mem_insertByte hc with rfl | hc
        · have := hno.1
          simp only at this ⊢
          omega
        · exact hp.1 c hc
  · rcases Memory.mem_insertByte hc with rfl | hc
    · exact ⟨hv, hn⟩
    · exact h.2 c hc

/-- Writing a byte inside the memory keeps the canonical form. -/
theorem Memory.wf_writeByte {m : Memory} (h : m.wf) {n : Nat} (hn : n < 2 * Config.memWords) (v : Byte) :
    (m.writeByte n v).wf := by
  by_cases hv : v = 0
  · simpa [Memory.writeByte, hv] using Memory.wf_eraseByte h n
  · rw [Memory.writeByte, if_neg hv]
    exact Memory.wf_insertByte (Memory.wf_eraseByte h n) hn (Memory.eraseByte_no_cell m n) hv

/-- Writing a word inside the memory keeps the canonical form. -/
theorem Memory.wf_writeWord {m : Memory} (h : m.wf) {k : Nat} (hk : k < Config.memWords) (w : Word) :
    (m.writeWord k w).wf := by
  refine Memory.wf_writeByte (Memory.wf_writeByte h ?_ _) ?_ _ <;> simp only [Config.memWords] at * <;> omega

/-- `MemWrite` keeps the canonical form (R37). -/
theorem Memory.wf_write? {m m' : Memory} (h : m.wf) {k : Nat} {w : Word} (hw : m.write? k w = some m') : m'.wf := by
  unfold Memory.write? at hw
  split at hw
  · obtain rfl := Option.some.inj hw
    exact Memory.wf_writeWord h ‹_› w
  · cases hw

/-- Placing words keeps the canonical form. -/
theorem Memory.wf_place {m : Memory} (h : m.wf) (k : Nat) (ws : List Word) : (m.place k ws).wf := by
  induction ws generalizing m k with
  | nil => exact h
  | cons w ws ih =>
    refine ih ?_ (k + 1)
    split
    · exact Memory.wf_writeWord h ‹_› w
    · exact h

/-- Placed words are read back from the place they were given, as far as the memory goes; every other word is as before. -/
theorem Memory.readWord_place (m : Memory) (k : Nat) (ws : List Word) (a : Nat) :
    (m.place k ws).readWord a =
      if k ≤ a ∧ a < k + ws.length ∧ a < Config.memWords then ws.getD (a - k) 0 else m.readWord a := by
  induction ws generalizing m k with
  | nil => simp [Memory.place]; omega
  | cons w ws ih =>
    rw [Memory.place, ih]
    by_cases h : a = k
    · subst h
      by_cases ha : a < 32768 <;> simp [ha, Memory.readWord_writeWord]
    · have hr : (if k < Config.memWords then m.writeWord k w else m).readWord a = m.readWord a := by
        split <;> simp [Memory.readWord_writeWord, h]
      by_cases hk : k ≤ a
      · obtain ⟨d, rfl⟩ : ∃ d, a = k + 1 + d := ⟨a - (k + 1), by omega⟩
        rw [hr, show k + 1 + d - k = d + 1 by omega]
        simp only [List.getD_cons_succ, Nat.add_sub_cancel_left, List.length_cons]
        congr 1
        exact propext ⟨fun h => by omega, fun h => by omega⟩
      · rw [hr, if_neg (by omega), if_neg (by omega)]

/-- The memory of the reset state is in canonical form. -/
theorem State.reset_mem_wf : State.reset.mem.wf := Memory.wf_nil

end Sys2Proof.Machine
end

