-- ==== Sys2Proof/Laws/State.lean ====
section
/-! SUPPORT. One lemma per field of the state and per update of it, each true by unfolding, and the register file's read
after write. -/

namespace Sys2Proof.Machine

variable (s : State)

@[simp] theorem State.setReg_mem (i : Fin 8) (v : Word) : (s.setReg i v).mem = s.mem := rfl
@[simp] theorem State.setReg_regs (i : Fin 8) (v : Word) : (s.setReg i v).regs = s.regs.set i.val v := rfl
@[simp] theorem State.setReg_stack (i : Fin 8) (v : Word) : (s.setReg i v).stack = s.stack := rfl
@[simp] theorem State.setReg_pc (i : Fin 8) (v : Word) : (s.setReg i v).pc = s.pc := rfl
@[simp] theorem State.setReg_runState (i : Fin 8) (v : Word) : (s.setReg i v).runState = s.runState := rfl
@[simp] theorem State.setReg_kind (i : Fin 8) (v : Word) : (s.setReg i v).kind = s.kind := rfl
@[simp] theorem State.setReg_faultPc (i : Fin 8) (v : Word) : (s.setReg i v).faultPc = s.faultPc := rfl
@[simp] theorem State.setReg_faultValue (i : Fin 8) (v : Word) : (s.setReg i v).faultValue = s.faultValue := rfl
@[simp] theorem State.setReg_params (i : Fin 8) (v : Word) : (s.setReg i v).params = s.params := rfl
@[simp] theorem State.setReg_ports (i : Fin 8) (v : Word) : (s.setReg i v).ports = s.ports := rfl

@[simp] theorem State.raise_mem (k : FaultKind) (v : Word) : (s.raise k v).mem = s.mem := rfl
@[simp] theorem State.raise_regs (k : FaultKind) (v : Word) : (s.raise k v).regs = s.regs := rfl
@[simp] theorem State.raise_stack (k : FaultKind) (v : Word) : (s.raise k v).stack = s.stack := rfl
@[simp] theorem State.raise_pc (k : FaultKind) (v : Word) : (s.raise k v).pc = s.pc := rfl
@[simp] theorem State.raise_runState (k : FaultKind) (v : Word) : (s.raise k v).runState = .faulted := rfl
@[simp] theorem State.raise_kind (k : FaultKind) (v : Word) : (s.raise k v).kind = some k := rfl
@[simp] theorem State.raise_faultPc (k : FaultKind) (v : Word) : (s.raise k v).faultPc = s.pc := rfl
@[simp] theorem State.raise_faultValue (k : FaultKind) (v : Word) : (s.raise k v).faultValue = v := rfl
@[simp] theorem State.raise_params (k : FaultKind) (v : Word) : (s.raise k v).params = s.params := rfl
@[simp] theorem State.raise_ports (k : FaultKind) (v : Word) : (s.raise k v).ports = s.ports := rfl

@[simp] theorem State.hold_mem (w : RunState) : (s.hold w).mem = s.mem := rfl
@[simp] theorem State.hold_regs (w : RunState) : (s.hold w).regs = s.regs := rfl
@[simp] theorem State.hold_stack (w : RunState) : (s.hold w).stack = s.stack := rfl
@[simp] theorem State.hold_pc (w : RunState) : (s.hold w).pc = s.pc := rfl
@[simp] theorem State.hold_runState (w : RunState) : (s.hold w).runState = w := rfl
@[simp] theorem State.hold_kind (w : RunState) : (s.hold w).kind = s.kind := rfl
@[simp] theorem State.hold_faultPc (w : RunState) : (s.hold w).faultPc = s.faultPc := rfl
@[simp] theorem State.hold_faultValue (w : RunState) : (s.hold w).faultValue = s.faultValue := rfl
@[simp] theorem State.hold_params (w : RunState) : (s.hold w).params = s.params := rfl
@[simp] theorem State.hold_ports (w : RunState) : (s.hold w).ports = s.ports := rfl

@[simp] theorem State.commit_mem (i : Instr) (n : Word) (t : State) : (s.commit i n t).mem = t.mem := rfl
@[simp] theorem State.commit_regs (i : Instr) (n : Word) (t : State) : (s.commit i n t).regs = t.regs := rfl
@[simp] theorem State.commit_stack (i : Instr) (n : Word) (t : State) : (s.commit i n t).stack = t.stack := rfl
@[simp] theorem State.commit_pc (i : Instr) (n : Word) (t : State) : (s.commit i n t).pc = n := rfl
@[simp] theorem State.commit_runState (i : Instr) (n : Word) (t : State) : (s.commit i n t).runState = t.runState.resumed := rfl
@[simp] theorem State.commit_kind (i : Instr) (n : Word) (t : State) : (s.commit i n t).kind = t.kind := rfl
@[simp] theorem State.commit_faultPc (i : Instr) (n : Word) (t : State) : (s.commit i n t).faultPc = t.faultPc := rfl
@[simp] theorem State.commit_faultValue (i : Instr) (n : Word) (t : State) : (s.commit i n t).faultValue = t.faultValue := rfl
@[simp] theorem State.commit_params (i : Instr) (n : Word) (t : State) : (s.commit i n t).params = t.params := rfl
@[simp] theorem State.commit_ports (i : Instr) (n : Word) (t : State) : (s.commit i n t).ports = { t.ports with trace := s.traceAfter i } := rfl

@[simp] theorem State.feedAddr_mem (a : Word) : (s.feedAddr a).mem = s.mem := rfl
@[simp] theorem State.feedAddr_regs (a : Word) : (s.feedAddr a).regs = s.regs := rfl
@[simp] theorem State.feedAddr_stack (a : Word) : (s.feedAddr a).stack = s.stack := rfl
@[simp] theorem State.feedAddr_pc (a : Word) : (s.feedAddr a).pc = s.pc := rfl
@[simp] theorem State.feedAddr_runState (a : Word) : (s.feedAddr a).runState = s.runState := rfl
@[simp] theorem State.feedAddr_kind (a : Word) : (s.feedAddr a).kind = s.kind := rfl
@[simp] theorem State.feedAddr_faultPc (a : Word) : (s.feedAddr a).faultPc = s.faultPc := rfl
@[simp] theorem State.feedAddr_faultValue (a : Word) : (s.feedAddr a).faultValue = s.faultValue := rfl
@[simp] theorem State.feedAddr_params (a : Word) : (s.feedAddr a).params = s.params := rfl
@[simp] theorem State.feedAddr_ports (a : Word) : (s.feedAddr a).ports = { s.ports with feed := if s.params.feedInUse then s.ports.feed ++ [a] else s.ports.feed } := rfl

@[simp] theorem State.dropCommand_mem : (s.dropCommand).mem = s.mem := rfl
@[simp] theorem State.dropCommand_regs : (s.dropCommand).regs = s.regs := rfl
@[simp] theorem State.dropCommand_stack : (s.dropCommand).stack = s.stack := rfl
@[simp] theorem State.dropCommand_pc : (s.dropCommand).pc = s.pc := rfl
@[simp] theorem State.dropCommand_runState : (s.dropCommand).runState = s.runState := rfl
@[simp] theorem State.dropCommand_kind : (s.dropCommand).kind = s.kind := rfl
@[simp] theorem State.dropCommand_faultPc : (s.dropCommand).faultPc = s.faultPc := rfl
@[simp] theorem State.dropCommand_faultValue : (s.dropCommand).faultValue = s.faultValue := rfl
@[simp] theorem State.dropCommand_params : (s.dropCommand).params = s.params := rfl
@[simp] theorem State.dropCommand_ports : (s.dropCommand).ports = { s.ports with commands := s.ports.commands.tail } := rfl

/-- What a register holds after a write to the register file (R16). -/
@[simp] theorem State.reg_setReg (d r : Fin 8) (v : Word) : (s.setReg d v).reg r = if r = d then v else s.reg r := by
  simp only [State.reg, State.setReg, Vector.getElem_set, Fin.ext_iff]
  by_cases h : d.val = r.val <;> simp [h, eq_comm]

@[simp] theorem State.reg_raise (k : FaultKind) (v : Word) (r : Fin 8) : (s.raise k v).reg r = s.reg r := rfl
@[simp] theorem State.reg_hold (w : RunState) (r : Fin 8) : (s.hold w).reg r = s.reg r := rfl
@[simp] theorem State.reg_commit (i : Instr) (n : Word) (t : State) (r : Fin 8) : (s.commit i n t).reg r = t.reg r := rfl
@[simp] theorem State.reg_feedAddr (a : Word) (r : Fin 8) : (s.feedAddr a).reg r = s.reg r := rfl
@[simp] theorem State.reg_dropCommand (r : Fin 8) : s.dropCommand.reg r = s.reg r := rfl

end Sys2Proof.Machine
end

