-- ==== Sys2Proof/Laws/Ops.lean ====
section
/-! SUPPORT. For each shared operation, what it can do, under the conditions that decide it; and, for those that go on with
a continuation, the two ways the step can end. -/

namespace Sys2Proof.Machine

variable (s : State)

/-! ### Operand words (R53 to R56) -/

theorem destIndex?_register {raw : Word} {i : Fin 8} (h : raw.toNat = 32768 + i.val) : destIndex? raw = some i := by
  have := i.isLt
  simp only [destIndex?, Config.regBase, Config.regLimit]
  rw [dif_pos ⟨by omega, by omega⟩]
  exact congrArg some (Fin.ext (by simp [h]))

theorem destIndex?_eq_some {raw : Word} {i : Fin 8} (h : destIndex? raw = some i) : raw.toNat = 32768 + i.val := by
  simp only [destIndex?, Config.regBase, Config.regLimit] at h
  split at h
  · rename_i hr
    obtain rfl := Option.some.inj h
    simp only
    omega
  · cases h

theorem destIndex?_eq_none {raw : Word} : destIndex? raw = none ↔ raw.toNat < 32768 ∨ 32776 ≤ raw.toNat := by
  simp only [destIndex?, Config.regBase, Config.regLimit]
  split <;> simp <;> omega

theorem value?_literal {raw : Word} (h : raw.toNat < 32768) : s.value? raw = some raw := by
  simp [State.value?, h]

theorem value?_register {raw : Word} {i : Fin 8} (h : raw.toNat = 32768 + i.val) : s.value? raw = some (s.reg i) := by
  have : ¬ raw.toNat < 32768 := by omega
  simp [State.value?, this, destIndex?_register h]

theorem value?_eq_none {raw : Word} : s.value? raw = none ↔ 32776 ≤ raw.toNat := by
  simp only [State.value?, Config.regBase]
  split
  · simp; omega
  · simp only [Option.map_eq_none_iff, destIndex?_eq_none]; omega

/-- The decoder accepts a word of a kind exactly when the operand decodes (R59). -/
theorem operandAccepted_value (r : Bool) (raw : Word) : operandAccepted r .value raw = (s.value? raw).isSome := by
  have := value?_eq_none s (raw := raw)
  cases h : s.value? raw <;> simp_all [operandAccepted]

theorem operandAccepted_dest (r : Bool) (raw : Word) : operandAccepted r .dest raw = (destIndex? raw).isSome := rfl

theorem transfer?_isSome (raw : Word) :
    (s.transfer? raw).isSome = (!s.params.resolveTransferOperands || decide (raw.toNat < 32776)) := by
  have := value?_eq_none s (raw := raw)
  cases hr : s.params.resolveTransferOperands <;> cases h : s.value? raw <;> simp_all [State.transfer?]

theorem operandAccepted_address (raw : Word) :
    operandAccepted s.params.resolveTransferOperands .address raw = (s.transfer? raw).isSome := by
  rw [transfer?_isSome]; rfl

theorem operandAccepted_char (raw : Word) :
    operandAccepted s.params.resolveTransferOperands .char raw = (s.transfer? raw).isSome := by
  rw [transfer?_isSome]; rfl

/-! ### Operands -/

@[simp] theorem withOperand_some {α : Type} (raw : Word) (v : α) (k : α → State) :
    withOperand s raw (some v) k = k v := rfl

@[simp] theorem withOperand_none {α : Type} (raw : Word) (k : α → State) :
    withOperand s raw none k = s.raise .invalidRegisterReference raw := rfl

/-- Everything a decoded operand can lead to. -/
theorem withOperand_cases {α : Type} (raw : Word) (d : Option α) (k : α → State) :
    (∃ v, d = some v ∧ withOperand s raw d k = k v) ∨
      (d = none ∧ withOperand s raw d k = s.raise .invalidRegisterReference raw) := by
  cases d <;> simp

/-! ### Stack (R21, R22) -/

theorem stackFull_eq_false (h : ∀ n, s.params.stackDepthMax = some n → s.stack.length ≠ n) : s.stackFull = false := by
  unfold State.stackFull
  split
  · rfl
  · rename_i n hn
    simpa using h n hn

theorem stackFull_eq_true {n : Nat} (h : s.params.stackDepthMax = some n) (hn : s.stack.length = n) :
    s.stackFull = true := by simp [State.stackFull, h, hn]

theorem withPush_room (v : Word) (k : State → State)
    (h : ∀ n, s.params.stackDepthMax = some n → s.stack.length ≠ n) :
    withPush s v k = k { s with stack := s.stack ++ [v] } := by
  simp [withPush, stackFull_eq_false s h]

theorem withPush_full (v : Word) (k : State → State) {n : Nat} (h : s.params.stackDepthMax = some n)
    (hn : s.stack.length = n) : withPush s v k = s.raise .stackOverflow (capacityWord n) := by
  simp [withPush, stackFull_eq_true s h hn, State.capacityValue, h]

/-- Everything a push can lead to. -/
theorem withPush_cases (v : Word) (k : State → State) :
    ((∀ n, s.params.stackDepthMax = some n → s.stack.length ≠ n) ∧
        withPush s v k = k { s with stack := s.stack ++ [v] }) ∨
      (∃ n, s.params.stackDepthMax = some n ∧ s.stack.length = n ∧
        withPush s v k = s.raise .stackOverflow (capacityWord n)) := by
  by_cases h : ∃ n, s.params.stackDepthMax = some n ∧ s.stack.length = n
  · obtain ⟨n, h, hn⟩ := h
    exact .inr ⟨n, h, hn, withPush_full s v k h hn⟩
  · have h' : ∀ n, s.params.stackDepthMax = some n → s.stack.length ≠ n := fun n hn he => h ⟨n, hn, he⟩
    exact .inl ⟨h', withPush_room s v k h'⟩

theorem withPop_concat {v : Word} {rest : List Word} (k : Word → State → State) (h : s.stack = rest ++ [v]) :
    withPop s k = k v { s with stack := rest } := by simp [withPop, h]

theorem withPop_nil (k : Word → State → State) (h : s.stack = []) : withPop s k = s.raise .stackUnderflow 0 := by
  simp [withPop, h]

/-- Everything a pop can lead to. -/
theorem withPop_cases (k : Word → State → State) :
    (∃ rest v, s.stack = rest ++ [v] ∧ withPop s k = k v { s with stack := rest }) ∨
      (s.stack = [] ∧ withPop s k = s.raise .stackUnderflow 0) := by
  rcases List.eq_nil_or_concat s.stack with h | ⟨rest, v, h⟩
  · exact .inr ⟨h, withPop_nil s k h⟩
  · exact .inl ⟨rest, v, by simpa using h, withPop_concat s k (by simpa using h)⟩

/-! ### Memory (R36, R37) -/

theorem withMemRead_inside (addr : Word) (k : Word → State) (h : addr.toNat < 32768) :
    withMemRead s addr k = k (s.mem.readWord addr.toNat) := by simp [withMemRead, Memory.read?, h]

theorem withMemRead_outside (addr : Word) (k : Word → State) (h : 32768 ≤ addr.toNat) :
    withMemRead s addr k = s.raise .memoryOutOfRange addr := by
  have : ¬ addr.toNat < 32768 := by omega
  simp [withMemRead, Memory.read?, this]

/-- Everything a data read can lead to. -/
theorem withMemRead_cases (addr : Word) (k : Word → State) :
    (addr.toNat < 32768 ∧ withMemRead s addr k = k (s.mem.readWord addr.toNat)) ∨
      (32768 ≤ addr.toNat ∧ withMemRead s addr k = s.raise .memoryOutOfRange addr) := by
  rcases Nat.lt_or_ge addr.toNat 32768 with h | h
  · exact .inl ⟨h, withMemRead_inside s addr k h⟩
  · exact .inr ⟨h, withMemRead_outside s addr k h⟩

theorem withMemWrite_inside (addr v : Word) (k : State → State) (h : addr.toNat < 32768) :
    withMemWrite s addr v k = k { s with mem := s.mem.writeWord addr.toNat v } := by
  simp [withMemWrite, Memory.write?, h]

theorem withMemWrite_outside (addr v : Word) (k : State → State) (h : 32768 ≤ addr.toNat) :
    withMemWrite s addr v k = s.raise .memoryOutOfRange addr := by
  have : ¬ addr.toNat < 32768 := by omega
  simp [withMemWrite, Memory.write?, this]

/-- Everything a data write can lead to. -/
theorem withMemWrite_cases (addr v : Word) (k : State → State) :
    (addr.toNat < 32768 ∧ withMemWrite s addr v k = k { s with mem := s.mem.writeWord addr.toNat v }) ∨
      (32768 ≤ addr.toNat ∧ withMemWrite s addr v k = s.raise .memoryOutOfRange addr) := by
  rcases Nat.lt_or_ge addr.toNat 32768 with h | h
  · exact .inl ⟨h, withMemWrite_inside s addr v k h⟩
  · exact .inr ⟨h, withMemWrite_outside s addr v k h⟩

/-! ### Host answers (R100, R101) -/

/-- Taking an answer to IN touches nothing but the answers to IN. -/
theorem takeIn_frame (p : Ports) :
    p.takeIn = { p with inAnswers := p.takeIn.inAnswers, inDraws := p.takeIn.inDraws } := by
  unfold Ports.takeIn; split <;> rfl

/-- Taking an answer to OUT touches nothing but the answers to OUT. -/
theorem takeOut_frame (p : Ports) :
    p.takeOut = { p with outAnswers := p.takeOut.outAnswers, outDraws := p.takeOut.outDraws } := by
  unfold Ports.takeOut; split <;> rfl

/-- A listed answer to IN is taken from the front of the list. -/
theorem takeIn_cons {p : Ports} {a : InAnswer} {rest : List InAnswer} (h : p.inAnswers = a :: rest) :
    p.inAnswer = a ∧ p.takeIn = { p with inAnswers := rest } := by simp [Ports.inAnswer, Ports.takeIn, h]

/-- Where no answer to IN is listed, a free one is drawn. -/
theorem takeIn_nil {p : Ports} (h : p.inAnswers = []) :
    p.inAnswer = Config.inDraw p.inDraws ∧ p.takeIn = { p with inDraws := p.inDraws + 1 } := by
  simp [Ports.inAnswer, Ports.takeIn, h]

/-- A listed answer to OUT is taken from the front of the list. -/
theorem takeOut_cons {p : Ports} {a : OutAnswer} {rest : List OutAnswer} (h : p.outAnswers = a :: rest) :
    p.outAnswer = a ∧ p.takeOut = { p with outAnswers := rest } := by simp [Ports.outAnswer, Ports.takeOut, h]

/-- Where no answer to OUT is listed, a free one is drawn. -/
theorem takeOut_nil {p : Ports} (h : p.outAnswers = []) :
    p.outAnswer = Config.outDraw p.outDraws ∧ p.takeOut = { p with outDraws := p.outDraws + 1 } := by
  simp [Ports.outAnswer, Ports.takeOut, h]

@[simp] theorem takeIn_commands (p : Ports) : p.takeIn.commands = p.commands := by unfold Ports.takeIn; split <;> rfl
@[simp] theorem takeIn_outAnswers (p : Ports) : p.takeIn.outAnswers = p.outAnswers := by unfold Ports.takeIn; split <;> rfl
@[simp] theorem takeIn_outDraws (p : Ports) : p.takeIn.outDraws = p.outDraws := by unfold Ports.takeIn; split <;> rfl
@[simp] theorem takeIn_output (p : Ports) : p.takeIn.output = p.output := by unfold Ports.takeIn; split <;> rfl
@[simp] theorem takeIn_feed (p : Ports) : p.takeIn.feed = p.feed := by unfold Ports.takeIn; split <;> rfl
@[simp] theorem takeIn_trace (p : Ports) : p.takeIn.trace = p.trace := by unfold Ports.takeIn; split <;> rfl

@[simp] theorem takeOut_commands (p : Ports) : p.takeOut.commands = p.commands := by unfold Ports.takeOut; split <;> rfl
@[simp] theorem takeOut_inAnswers (p : Ports) : p.takeOut.inAnswers = p.inAnswers := by unfold Ports.takeOut; split <;> rfl
@[simp] theorem takeOut_inDraws (p : Ports) : p.takeOut.inDraws = p.inDraws := by unfold Ports.takeOut; split <;> rfl
@[simp] theorem takeOut_output (p : Ports) : p.takeOut.output = p.output := by unfold Ports.takeOut; split <;> rfl
@[simp] theorem takeOut_feed (p : Ports) : p.takeOut.feed = p.feed := by unfold Ports.takeOut; split <;> rfl
@[simp] theorem takeOut_trace (p : Ports) : p.takeOut.trace = p.trace := by unfold Ports.takeOut; split <;> rfl

/-- Everything IN's request can lead to, by the host's answer. -/
theorem withReceive_cases (k : Byte → State → State) :
    (∃ b, s.ports.inAnswer = .byte b ∧ withReceive s k = k b { s with ports := s.ports.takeIn }) ∨
      (s.ports.inAnswer = .eof ∧ withReceive s k = State.raise { s with ports := s.ports.takeIn } .inputExhausted 0) ∨
      (s.ports.inAnswer = .fail ∧ withReceive s k = State.raise { s with ports := s.ports.takeIn } .ioFailure 0) ∨
      (s.ports.inAnswer = .none ∧ withReceive s k = State.hold { s with ports := s.ports.takeIn } .waitInput) := by
  cases h : s.ports.inAnswer <;> simp [withReceive, h]

/-- Everything OUT's offer can lead to, by the host's answer. -/
theorem withEmit_cases (v : Word) (k : State → State) :
    (s.ports.outAnswer = .accept ∧
        withEmit s v k = k { s with ports := { s.ports.takeOut with output := s.ports.takeOut.output ++ [v] } }) ∨
      (s.ports.outAnswer = .fail ∧ withEmit s v k = State.raise { s with ports := s.ports.takeOut } .ioFailure 0) ∨
      (s.ports.outAnswer = .none ∧ withEmit s v k = State.hold { s with ports := s.ports.takeOut } .waitOutput) := by
  cases h : s.ports.outAnswer <;> simp [withEmit, h]

/-! ### Shapes -/

/-- Everything an instruction of the shape D, V can lead to. -/
theorem destValue_cases (i : Instr) (a b : Word) (f : Word → Word) :
    (∃ d B, destIndex? a = some d ∧ s.value? b = some B ∧
        destValue i a b f s = s.commitNext i (s.setReg d (f B))) ∨
      (∃ w, destValue i a b f s = s.raise .invalidRegisterReference w) := by
  unfold destValue withDest withValue
  cases destIndex? a <;> cases s.value? b <;> simp

/-- Everything an instruction of the shape D, V, V can lead to. -/
theorem destValueValue_cases (i : Instr) (a b c : Word) (f : Word → Word → Word) :
    (∃ d B C, destIndex? a = some d ∧ s.value? b = some B ∧ s.value? c = some C ∧
        destValueValue i a b c f s = s.commitNext i (s.setReg d (f B C))) ∨
      (∃ w, destValueValue i a b c f s = s.raise .invalidRegisterReference w) := by
  unfold destValueValue withDest withValue
  cases destIndex? a <;> cases s.value? b <;> cases s.value? c <;> simp

/-- `next_pc` without wrapping (R20, R50), for a pc that can be fetched at. -/
theorem nextPc_toNat (i : Instr) (h : s.pc.toNat < 32768) (hl : i.length ≤ 4) :
    (s.nextPc i).toNat = s.pc.toNat + i.length := by
  simp only [State.nextPc, BitVec.toNat_add, BitVec.toNat_ofNat]
  omega

end Sys2Proof.Machine
end

