-- ==== Sys2Proof/Laws/PerInstr.lean ====
section
/-! SUPPORT. The per-instruction family EncodedShape: each instruction's encoding has the length its opcode's operand
kinds give it (R48, R50, R52). -/

namespace Sys2Proof.Laws.EncodedShape

/-- The opcode is one of 0 to 21, its row of R52 has as many operand kinds as the instruction has operand words, and the
encoding is the opcode word and those operand words, 1 to 4 words. -/
def Statement (i : Instr) : Prop :=
  ∃ kinds, operandKinds i.opcode = some kinds ∧ i.operands.length = kinds.length ∧
    (encode i).length = 1 + kinds.length ∧ i.opcode < 22 ∧ i.length ≤ 4

theorem halt : Statement .halt := ⟨_, rfl, rfl, rfl, of_decide_eq_true rfl, of_decide_eq_true rfl⟩
theorem set (a b : Word) : Statement (.set a b) := ⟨_, rfl, rfl, rfl, of_decide_eq_true rfl, of_decide_eq_true rfl⟩
theorem push (a : Word) : Statement (.push a) := ⟨_, rfl, rfl, rfl, of_decide_eq_true rfl, of_decide_eq_true rfl⟩
theorem pop (a : Word) : Statement (.pop a) := ⟨_, rfl, rfl, rfl, of_decide_eq_true rfl, of_decide_eq_true rfl⟩
theorem eq (a b c : Word) : Statement (.eq a b c) := ⟨_, rfl, rfl, rfl, of_decide_eq_true rfl, of_decide_eq_true rfl⟩
theorem gt (a b c : Word) : Statement (.gt a b c) := ⟨_, rfl, rfl, rfl, of_decide_eq_true rfl, of_decide_eq_true rfl⟩
theorem jmp (a : Word) : Statement (.jmp a) := ⟨_, rfl, rfl, rfl, of_decide_eq_true rfl, of_decide_eq_true rfl⟩
theorem jt (a b : Word) : Statement (.jt a b) := ⟨_, rfl, rfl, rfl, of_decide_eq_true rfl, of_decide_eq_true rfl⟩
theorem jf (a b : Word) : Statement (.jf a b) := ⟨_, rfl, rfl, rfl, of_decide_eq_true rfl, of_decide_eq_true rfl⟩
theorem add (a b c : Word) : Statement (.add a b c) := ⟨_, rfl, rfl, rfl, of_decide_eq_true rfl, of_decide_eq_true rfl⟩
theorem mult (a b c : Word) : Statement (.mult a b c) := ⟨_, rfl, rfl, rfl, of_decide_eq_true rfl, of_decide_eq_true rfl⟩
theorem mod (a b c : Word) : Statement (.mod a b c) := ⟨_, rfl, rfl, rfl, of_decide_eq_true rfl, of_decide_eq_true rfl⟩
theorem and (a b c : Word) : Statement (.and a b c) := ⟨_, rfl, rfl, rfl, of_decide_eq_true rfl, of_decide_eq_true rfl⟩
theorem or (a b c : Word) : Statement (.or a b c) := ⟨_, rfl, rfl, rfl, of_decide_eq_true rfl, of_decide_eq_true rfl⟩
theorem not (a b : Word) : Statement (.not a b) := ⟨_, rfl, rfl, rfl, of_decide_eq_true rfl, of_decide_eq_true rfl⟩
theorem rmem (a b : Word) : Statement (.rmem a b) := ⟨_, rfl, rfl, rfl, of_decide_eq_true rfl, of_decide_eq_true rfl⟩
theorem wmem (a b : Word) : Statement (.wmem a b) := ⟨_, rfl, rfl, rfl, of_decide_eq_true rfl, of_decide_eq_true rfl⟩
theorem call (a : Word) : Statement (.call a) := ⟨_, rfl, rfl, rfl, of_decide_eq_true rfl, of_decide_eq_true rfl⟩
theorem ret : Statement .ret := ⟨_, rfl, rfl, rfl, of_decide_eq_true rfl, of_decide_eq_true rfl⟩
theorem out (a : Word) : Statement (.out a) := ⟨_, rfl, rfl, rfl, of_decide_eq_true rfl, of_decide_eq_true rfl⟩
theorem inp (a : Word) : Statement (.inp a) := ⟨_, rfl, rfl, rfl, of_decide_eq_true rfl, of_decide_eq_true rfl⟩
theorem noop : Statement .noop := ⟨_, rfl, rfl, rfl, of_decide_eq_true rfl, of_decide_eq_true rfl⟩

end Sys2Proof.Laws.EncodedShape
end

