-- ==== Sys2Proof/Laws/Step.lean ====
section
/-! SUPPORT. What an instruction step can do, said once: the three ways `exec` can end (R72: fault, hold, commit), what
fetch tells of the instruction it answers, and what the machine's step is when the engine has the turn. -/

namespace Sys2Proof.Machine

/-- Nothing has left the block through the ports `p`, and the host's commands are those of `s`: only host answers to IN
and OUT may have been taken. -/
structure OnlyAnswersTaken (s : State) (p : Ports) : Prop where
  output : p.output = s.ports.output
  feed : p.feed = s.ports.feed
  trace : p.trace = s.ports.trace
  commands : p.commands = s.ports.commands

theorem OnlyAnswersTaken.refl (s : State) : OnlyAnswersTaken s s.ports := ⟨rfl, rfl, rfl, rfl⟩
theorem OnlyAnswersTaken.takeIn (s : State) : OnlyAnswersTaken s s.ports.takeIn := by constructor <;> simp
theorem OnlyAnswersTaken.takeOut (s : State) : OnlyAnswersTaken s s.ports.takeOut := by constructor <;> simp

/-- The three ways an instruction `i` run at `s` can end. -/
inductive ExecEnds (i : Instr) (s : State) : State → Prop where
  /-- With a fault, whose value fits its kind. -/
  | raised (k : FaultKind) (v : Word) (p : Ports) (ports : OnlyAnswersTaken s p)
      (fits : faultValueFits (State.raise { s with ports := p } k v) k) :
      ExecEnds i s (State.raise { s with ports := p } k v)
  /-- With a hold, of IN for input or of OUT for the sink. -/
  | held (w : RunState) (p : Ports) (ports : OnlyAnswersTaken s p)
      (waits : (w = .waitInput ∧ ∃ a, i = .inp a) ∨ (w = .waitOutput ∧ ∃ a, i = .out a)) :
      ExecEnds i s (State.hold { s with ports := p } w)
  /-- With a commit of the state `u` and the new pc `n`. -/
  | committed (n : Word) (u : State) (record : u.kind = s.kind ∧ u.faultPc = s.faultPc ∧ u.faultValue = s.faultValue)
      (params : u.params = s.params) (commands : u.ports.commands = s.ports.commands)
      (canonical : s.mem.wf → u.mem.wf) (mem : u.mem = s.mem ∨ ∃ a b, i = .wmem a b)
      (stack : ∀ m, s.params.stackDepthMax = some m → s.stack.length ≤ m → u.stack.length ≤ m)
      (run : (u.runState = s.runState ∧ i ≠ .halt) ∨ (u.runState = .halted ∧ i = .halt ∧ n = s.nextPc .halt)) :
      ExecEnds i s (s.commit i n u)

variable (i : Instr) (s : State)

/-- A fault of the arm itself: no host answer has been taken. -/
theorem ExecEnds.raise {k : FaultKind} {v : Word} (fits : faultValueFits (s.raise k v) k) : ExecEnds i s (s.raise k v) :=
  .raised k v s.ports (.refl s) fits

theorem ExecEnds.badDest {raw : Word} (h : destIndex? raw = none) :
    ExecEnds i s (s.raise .invalidRegisterReference raw) := .raise i s (destIndex?_eq_none.1 h)

theorem ExecEnds.badValue {raw : Word} (h : s.value? raw = none) :
    ExecEnds i s (s.raise .invalidRegisterReference raw) := .raise i s (.inr ((value?_eq_none s).1 h))

theorem ExecEnds.badTransfer {raw : Word} (h : s.transfer? raw = none) :
    ExecEnds i s (s.raise .invalidRegisterReference raw) := by
  unfold State.transfer? at h
  split at h
  · exact .badValue i s h
  · cases h

/-- A commit that leaves memory and run state, and does not deepen the stack past its bound. -/
theorem ExecEnds.plain {n : Word} {u : State} (hi : i ≠ .halt)
    (hu : u.mem = s.mem ∧ u.runState = s.runState ∧ u.kind = s.kind ∧ u.faultPc = s.faultPc ∧
      u.faultValue = s.faultValue ∧ u.params = s.params ∧ u.ports.commands = s.ports.commands)
    (stack : ∀ m, s.params.stackDepthMax = some m → s.stack.length ≤ m → u.stack.length ≤ m) :
    ExecEnds i s (s.commit i n u) := by
  obtain ⟨hm, hr, hk, hp, hv, hpa, hc⟩ := hu
  exact .committed n u ⟨hk, hp, hv⟩ hpa hc (fun h => hm ▸ h) (.inl hm) stack (.inl ⟨hr, hi⟩)

theorem ExecEnds.destValue {a b : Word} {f : Word → Word} (hi : i ≠ .halt) : ExecEnds i s (destValue i a b f s) := by
  unfold Machine.destValue withDest withValue
  rcases withOperand_cases s a (destIndex? a) _ with ⟨d, -, e⟩ | ⟨h, e⟩ <;> rw [e]
  · rcases withOperand_cases s b (s.value? b) _ with ⟨B, -, e⟩ | ⟨h, e⟩ <;> rw [e]
    · exact .plain i s hi ⟨rfl, rfl, rfl, rfl, rfl, rfl, rfl⟩ fun _ _ => id
    · exact .badValue i s h
  · exact .badDest i s h

theorem ExecEnds.destValueValue {a b c : Word} {f : Word → Word → Word} (hi : i ≠ .halt) :
    ExecEnds i s (destValueValue i a b c f s) := by
  unfold Machine.destValueValue withDest withValue
  rcases withOperand_cases s a (destIndex? a) _ with ⟨d, -, e⟩ | ⟨h, e⟩ <;> rw [e]
  · rcases withOperand_cases s b (s.value? b) _ with ⟨B, -, e⟩ | ⟨h, e⟩ <;> rw [e]
    · rcases withOperand_cases s c (s.value? c) _ with ⟨C, -, e⟩ | ⟨h, e⟩ <;> rw [e]
      · exact .plain i s hi ⟨rfl, rfl, rfl, rfl, rfl, rfl, rfl⟩ fun _ _ => id
      · exact .badValue i s h
    · exact .badValue i s h
  · exact .badDest i s h

theorem ExecEnds.push {v : Word} {k : State → State}
    (hk : (∀ m, s.params.stackDepthMax = some m → s.stack.length ≤ m → s.stack.length + 1 ≤ m) →
      ExecEnds i s (k { s with stack := s.stack ++ [v] })) : ExecEnds i s (withPush s v k) := by
  rcases withPush_cases s v k with ⟨h, e⟩ | ⟨n, h, hn, e⟩ <;> rw [e]
  · exact hk fun m hm hl => by have := h m hm; omega
  · exact .raise i s ⟨n, h, hn, rfl⟩

theorem ExecEnds.pop {k : Word → State → State}
    (hk : ∀ rest v, rest.length ≤ s.stack.length → ExecEnds i s (k v { s with stack := rest })) :
    ExecEnds i s (withPop s k) := by
  rcases withPop_cases s k with ⟨rest, v, h, e⟩ | ⟨h, e⟩ <;> rw [e]
  · exact hk rest v (by simp [h])
  · exact .raise i s ⟨rfl, h⟩

/-- Everything an instruction can do: every next state of `exec` is one of the three ends. -/
theorem exec_ends {i : Instr} {s t : State} (h : exec i s = .next t) : ExecEnds i s t := by
  have same : s.mem = s.mem ∧ s.runState = s.runState ∧ s.kind = s.kind ∧ s.faultPc = s.faultPc ∧
      s.faultValue = s.faultValue ∧ s.params = s.params ∧ s.ports.commands = s.ports.commands :=
    ⟨rfl, rfl, rfl, rfl, rfl, rfl, rfl⟩
  cases i with
  | halt =>
    cases h
    exact .committed _ _ ⟨rfl, rfl, rfl⟩ rfl rfl id (.inl rfl) (fun _ _ => id) (.inr ⟨rfl, rfl, rfl⟩)
  | set | not => cases h; exact .destValue _ s nofun
  | eq | gt | add | mult | and | or => cases h; exact .destValueValue _ s nofun
  | noop => cases h; exact .plain _ s nofun same fun _ _ => id
  | push a =>
    cases h
    rcases withOperand_cases s a (s.value? a) _ with ⟨A, -, e⟩ | ⟨h, e⟩ <;> rw [withValue, e]
    · exact .push _ s fun hl => .plain _ s nofun same fun m hm h => by simpa using hl m hm h
    · exact .badValue _ s h
  | pop a =>
    cases h
    rcases withOperand_cases s a (destIndex? a) _ with ⟨d, -, e⟩ | ⟨h, e⟩ <;> rw [withDest, e]
    · exact .pop _ s fun rest v hl => .plain _ s nofun same fun m hm h => Nat.le_trans hl h
    · exact .badDest _ s h
  | jmp a =>
    cases h
    rcases withOperand_cases s a (s.transfer? a) _ with ⟨A, -, e⟩ | ⟨h, e⟩ <;> rw [withTransfer, e]
    · exact .plain _ s nofun same fun _ _ => id
    · exact .badTransfer _ s h
  | jt a b | jf a b =>
    cases h
    rcases withOperand_cases s a (s.value? a) _ with ⟨A, -, e⟩ | ⟨h, e⟩ <;> rw [withValue, e]
    · rcases withOperand_cases s b (s.transfer? b) _ with ⟨B, -, e⟩ | ⟨h, e⟩ <;> rw [withTransfer, e]
      · unfold jumpIf
        split <;> exact .plain _ s nofun same fun _ _ => id
      · exact .badTransfer _ s h
    · exact .badValue _ s h
  | mod a b c =>
    cases h
    rcases withOperand_cases s a (destIndex? a) _ with ⟨d, -, e⟩ | ⟨h, e⟩ <;> rw [withDest, e]
    · rcases withOperand_cases s b (s.value? b) _ with ⟨B, -, e⟩ | ⟨h, e⟩ <;> rw [withValue, e]
      · rcases withOperand_cases s c (s.value? c) _ with ⟨C, -, e⟩ | ⟨h, e⟩ <;> rw [withValue, e]
        · split
          · exact .raise _ s rfl
          · exact .plain _ s nofun same fun _ _ => id
        · exact .badValue _ s h
      · exact .badValue _ s h
    · exact .badDest _ s h
  | rmem a b =>
    cases h
    rcases withOperand_cases s a (destIndex? a) _ with ⟨d, -, e⟩ | ⟨h, e⟩ <;> rw [withDest, e]
    · rcases withOperand_cases s b (s.value? b) _ with ⟨B, -, e⟩ | ⟨h, e⟩ <;> rw [withValue, e]
      · rcases withMemRead_cases s B _ with ⟨-, e⟩ | ⟨h, e⟩ <;> rw [e]
        · exact .plain _ s nofun same fun _ _ => id
        · exact .raise _ s h
      · exact .badValue _ s h
    · exact .badDest _ s h
  | wmem a b =>
    cases h
    rcases withOperand_cases s a (s.value? a) _ with ⟨A, -, e⟩ | ⟨h, e⟩ <;> rw [withValue, e]
    · rcases withOperand_cases s b (s.value? b) _ with ⟨B, -, e⟩ | ⟨h, e⟩ <;> rw [withValue, e]
      · rcases withMemWrite_cases s A B _ with ⟨h, e⟩ | ⟨h, e⟩ <;> rw [e]
        · exact .committed _ _ ⟨rfl, rfl, rfl⟩ rfl rfl (fun hm => Memory.wf_writeWord hm h B) (.inr ⟨a, b, rfl⟩)
            (fun _ _ => id) (.inl ⟨rfl, nofun⟩)
        · exact .raise _ s h
      · exact .badValue _ s h
    · exact .badValue _ s h
  | call a =>
    cases h
    rcases withOperand_cases s a (s.transfer? a) _ with ⟨A, -, e⟩ | ⟨h, e⟩ <;> rw [withTransfer, e]
    · exact .push _ s fun hl => .plain _ s nofun same fun m hm h => by simpa using hl m hm h
    · exact .badTransfer _ s h
  | ret => cases h; exact .pop _ s fun rest v hl => .plain _ s nofun same fun m hm h => Nat.le_trans hl h
  | out a =>
    cases h
    rcases withOperand_cases s a (s.transfer? a) _ with ⟨A, -, e⟩ | ⟨h, e⟩ <;> rw [withTransfer, e]
    · rcases withEmit_cases s A _ with ⟨-, e⟩ | ⟨-, e⟩ | ⟨-, e⟩ <;> rw [e]
      · exact .plain _ s nofun ⟨rfl, rfl, rfl, rfl, rfl, rfl, by simp⟩ fun _ _ => id
      · exact .raised _ _ _ (.takeOut s) rfl
      · exact .held _ _ (.takeOut s) (.inr ⟨rfl, a, rfl⟩)
    · exact .badTransfer _ s h
  | inp a =>
    cases h
    rcases withOperand_cases s a (destIndex? a) _ with ⟨d, -, e⟩ | ⟨h, e⟩ <;> rw [withDest, e]
    · rcases withReceive_cases s _ with ⟨b, -, e⟩ | ⟨-, e⟩ | ⟨-, e⟩ | ⟨-, e⟩ <;> rw [e]
      · exact .plain _ s nofun ⟨rfl, rfl, rfl, rfl, rfl, rfl, by simp⟩ fun _ _ => id
      · exact .raised _ _ _ (.takeIn s) rfl
      · exact .raised _ _ _ (.takeIn s) rfl
      · exact .held _ _ (.takeIn s) (.inl ⟨rfl, a, rfl⟩)
    · exact .badDest _ s h

/-! ### Fetch and the machine's step -/

/-- The opcodes are 0 to 21 (R52). -/
theorem operandKinds_eq_none {n : Nat} : operandKinds n = none ↔ 22 ≤ n := by
  constructor
  · intro h
    by_contra hc
    interval_cases n <;> cases h
  · intro h
    unfold operandKinds
    split <;> first | omega | rfl

/-- Fetch depends on memory, pc and parameters alone. -/
theorem fetch_congr {s t : State} (hm : t.mem = s.mem) (hp : t.pc = s.pc) (hr : t.params = s.params) :
    fetch t = fetch s := by
  unfold fetch
  rw [hm, hp]
  split
  · rfl
  · rename_i r _
    cases r <;> simp [rejectFault, hp, hr]

/-- The machine's step when the engine has the turn (R64, R69). -/
theorem step_engineTurn {s : State} (h : s.engineTurn) :
    step s = match fetch s with
      | .ok i => exec i s.dropCommand
      | .error (k, v) => .next (s.dropCommand.raise k v) := by
  have hf : fetch s.dropCommand = fetch s := fetch_congr rfl rfl rfl
  cases hq : fetch s <;> simp [step, machineStep, h.1, engineStep, hf, hq, h.2]

/-- The machine's step when the host gives a command (R118 to R120). -/
theorem step_command {s : State} (h : s.command ≠ .none) : step s = .next (s.dropCommand.obey s.command) := by
  simp only [step, machineStep]

end Sys2Proof.Machine
end

