-- ==== Sys2Proof/Tests/Slice0.lean ====
section
/-! SUPPORT. Tests whose expected results are those of spec/95_test_vectors.md (the id stands in each comment) or are
worked out by hand from the rule named, and a witness for the hypotheses of each statement. -/

namespace Sys2Proof.Tests

open Machine

/-- A running machine with the words of a list in memory from the pc on, and nothing else but the reset values. -/
def running (pc : Word) (ws : List Word) : State :=
  { State.reset with mem := Memory.place [] pc.toNat ws, pc := pc, runState := .running }

/-- The state after one step. -/
def after (s : State) : State :=
  match step s with
  | .next t => t
  | .fault f => nomatch f
  | .refused _ => s

/-- The state after one instruction run by `exec`. -/
def ran (i : Instr) (s : State) : State :=
  match exec i s with
  | .next t => t
  | .fault f => nomatch f
  | .refused _ => s

/-- The run state, the fault kind, `FAULT_PC`, `FAULT_VALUE` and the pc. -/
def ending (s : State) : RunState × Option FaultKind × Word × Word × Word :=
  (s.runState, s.kind, s.faultPc, s.faultValue, s.pc)

/-! ### Well-formedness: one ill-formed term for each check -/

theorem test_wellFormed_accepts : (Instr.add 32775 32767 32768).wellFormed = true := by decide
theorem test_illFormed_one_value : (Instr.push 32776).wellFormed = false := by decide
theorem test_illFormed_one_dest : (Instr.pop 32767).wellFormed = false := by decide
theorem test_illFormed_dest_above : (Instr.inp 32776).wellFormed = false := by decide
theorem test_illFormed_first_of_two_values : (Instr.wmem 65535 0).wellFormed = false := by decide
theorem test_illFormed_second_of_two_values : (Instr.jt 0 32776).wellFormed = false := by decide
theorem test_illFormed_dest_of_two : (Instr.set 5 1).wellFormed = false := by decide
theorem test_illFormed_value_of_two : (Instr.not 32768 32776).wellFormed = false := by decide
theorem test_illFormed_dest_of_three : (Instr.mod 0 1 1).wellFormed = false := by decide
theorem test_illFormed_second_of_three : (Instr.eq 32768 40000 1).wellFormed = false := by decide
theorem test_illFormed_third_of_three : (Instr.or 32768 1 32776).wellFormed = false := by decide

/-! ### Decoding: each constructor from a word sequence written out from R52 and R53 -/

theorem test_decode_halt : decode [0x0000] = .ok .halt := rfl
theorem test_decode_set : decode [0x0001, 0x8000, 123] = .ok (.set 0x8000 123) := rfl
theorem test_decode_push : decode [0x0002, 7] = .ok (.push 7) := rfl
theorem test_decode_pop : decode [0x0003, 0x8000] = .ok (.pop 0x8000) := rfl
theorem test_decode_eq : decode [0x0004, 0x8001, 3, 4] = .ok (.eq 0x8001 3 4) := rfl
theorem test_decode_gt : decode [0x0005, 0x8002, 10, 9] = .ok (.gt 0x8002 10 9) := rfl
theorem test_decode_jmp : decode [0x0006, 100] = .ok (.jmp 100) := rfl
theorem test_decode_jt : decode [0x0007, 1, 50] = .ok (.jt 1 50) := rfl
theorem test_decode_jf : decode [0x0008, 0, 50] = .ok (.jf 0 50) := rfl
theorem test_decode_add : decode [0x0009, 0x8000, 0x8001, 4, 19] = .ok (.add 0x8000 0x8001 4) := rfl
theorem test_decode_mult : decode [0x000A, 0x8000, 200, 201] = .ok (.mult 0x8000 200 201) := rfl
theorem test_decode_mod : decode [0x000B, 0x8000, 10, 3] = .ok (.mod 0x8000 10 3) := rfl
theorem test_decode_and : decode [0x000C, 0x8000, 12, 10] = .ok (.and 0x8000 12 10) := rfl
theorem test_decode_or : decode [0x000D, 0x8000, 12, 10] = .ok (.or 0x8000 12 10) := rfl
theorem test_decode_not : decode [0x000E, 0x8001, 0] = .ok (.not 0x8001 0) := rfl
theorem test_decode_rmem : decode [0x000F, 0x8003, 100] = .ok (.rmem 0x8003 100) := rfl
theorem test_decode_wmem : decode [0x0010, 100, 1234] = .ok (.wmem 100 1234) := rfl
theorem test_decode_call : decode [0x0011, 100] = .ok (.call 100) := rfl
theorem test_decode_ret : decode [0x0012] = .ok .ret := rfl
theorem test_decode_out : decode [0x0013, 0x8000] = .ok (.out 0x8000) := rfl
theorem test_decode_in : decode [0x0014, 0x8004] = .ok (.inp 0x8004) := rfl
theorem test_decode_noop : decode [0x0015] = .ok .noop := rfl

/-- R59: the first illegal opcode. -/
theorem test_decode_rejects_22 : decode [22, 0, 0, 0] = .error (.illegalOpcode 22) := rfl

/-- R57: an operand word that is not there. -/
theorem test_decode_rejects_truncated : decode [1, 32768] = .error (.truncated [.dest, .value] [32768]) := rfl

/-- The table's 16 bits of every row are read as that row's opcode. -/
theorem test_decodeTableWord_rows :
    (List.range 22).map (fun n => (decodeTableWord 16 n).map Instr.opcode) = (List.range 22).map some := by decide

/-- An instruction of four words written as one number, first word lowest; and its first 16 bits alone. -/
theorem test_decodeTableWord_words :
    decodeTableWord 64 0x0004800180000009 = some (.add 0x8000 0x8001 4) ∧
    decodeTableWord 16 0x0004800180000009 = some (.add 0 0 0) := by decide

/-- After `withFetchWord`, the next step runs the placed instruction. -/
theorem test_withFetchWord_runs : after (State.reset.withFetchWord 16 21) = ran .noop (State.reset.withFetchWord 16 21) := by
  decide

/-! ### Fetch and decode faults -/

/-- E5, E6. -/
theorem test_illegal_opcodes :
    ending (after (running 0 [22])) = (.faulted, some .illegalOpcode, 0, 22, 0) ∧
    ending (after (running 0 [32768])) = (.faulted, some .illegalOpcode, 0, 32768, 0) := by decide

/-- E7: the first bad operand is reported. -/
theorem test_first_bad_operand :
    ending (after (running 0 [1, 65535, 65534])) = (.faulted, some .invalidRegisterReference, 0, 65535, 0) := by decide

/-- E8. -/
theorem test_operand_past_the_end :
    ending (after (running 32766 [1, 32768])) = (.faulted, some .memoryOutOfRange, 32766, 32768, 32766) := by decide

/-- R110: a bad operand before the end of memory comes before the operand address past it. -/
theorem test_bad_operand_before_the_end :
    ending (after (running 32766 [1, 5])) = (.faulted, some .invalidRegisterReference, 32766, 5, 32766) := by decide

/-! ### Instructions, one step each -/

/-- M1. -/
theorem test_halt : ending (after (running 0 [0])) = (.halted, none, 0, 0, 1) := by decide
/-- M2. -/
theorem test_halt_at_the_end : ending (after (running 32767 [0])) = (.halted, none, 0, 0, 32768) := by decide

/-- M4: not reduced. -/
theorem test_set_register : (after ((running 0 [1, 32768, 32769]).setReg 1 40000)).reg 0 = 40000 := by decide
/-- E4. -/
theorem test_set_literal_destination :
    ending (after (running 0 [1, 5, 1])) = (.faulted, some .invalidRegisterReference, 0, 5, 0) := by decide

/-- M6. -/
theorem test_push_register : (after ((running 0 [2, 32770]).setReg 2 40000)).stack = [40000] := by decide
/-- M7. -/
theorem test_push_full :
    let s := { running 0 [2, 7] with stack := [1, 2], params := { Params.default with stackDepthMax := some 2 } }
    ending (after s) = (.faulted, some .stackOverflow, 0, 2, 0) ∧ (after s).stack = [1, 2] := by decide

/-- M8. -/
theorem test_pop :
    let t := after { running 0 [3, 32768] with stack := [4, 9] }
    t.reg 0 = 9 ∧ t.stack = [4] ∧ t.pc = 2 := by decide
/-- M10: the stack keeps its top. -/
theorem test_pop_literal_destination :
    let t := after { running 0 [3, 100] with stack := [4] }
    ending t = (.faulted, some .invalidRegisterReference, 0, 100, 0) ∧ t.stack = [4] := by decide

/-- Q3: whole words are compared. -/
theorem test_eq_whole_words : (after ((running 0 [4, 32769, 32768, 7232]).setReg 0 40000)).reg 1 = 0 := by decide
/-- Q4: the old register is read. -/
theorem test_eq_source_is_destination : (after ((running 0 [4, 32768, 32768, 5]).setReg 0 5)).reg 0 = 1 := by decide

/-- Q8: unsigned. -/
theorem test_gt_unsigned : (after ((running 0 [5, 32770, 32768, 32767]).setReg 0 40000)).reg 2 = 1 := by decide
/-- Q6. -/
theorem test_gt_equal : (after ((running 0 [5, 32770, 9, 9]).setReg 2 7)).reg 2 = 0 := by decide

/-- J3: the transfer is taken, and the next fetch faults. -/
theorem test_jmp_out_of_range :
    let t := after ((running 10 [6, 32768]).setReg 0 40000)
    t.pc = 40000 ∧ ending (after t) = (.faulted, some .memoryOutOfRange, 40000, 40000, 40000) := by decide
/-- E10: the alternative reading of the operand. -/
theorem test_jmp_raw :
    (after { (running 0 [6, 32769]).setReg 1 40 with
      params := { Params.default with resolveTransferOperands := false } }).pc = 32769 := by decide

/-- J6. -/
theorem test_jt_nonzero : (after ((running 10 [7, 32768, 50]).setReg 0 32768)).pc = 50 := by decide
/-- J7: decoded though not taken. -/
theorem test_jt_bad_target :
    ending (after (running 10 [7, 0, 32776])) = (.faulted, some .invalidRegisterReference, 10, 32776, 10) := by decide

/-- J8, with the feed in use. -/
theorem test_jf_taken :
    let t := after { running 10 [8, 0, 50] with params := { Params.default with feedInUse := true } }
    t.pc = 50 ∧ t.ports.feed = [50] := by decide
/-- J9, with the feed in use. -/
theorem test_jf_not_taken :
    let t := after { running 10 [8, 5, 50] with params := { Params.default with feedInUse := true } }
    t.pc = 13 ∧ t.ports.feed = [] := by decide

/-- A3. -/
theorem test_add_largest :
    (after (((running 0 [9, 32768, 32769, 32770]).setReg 1 65535).setReg 2 65535)).reg 0 = 32766 := by decide
/-- A5. -/
theorem test_add_same_register : (after ((running 0 [9, 32768, 32768, 32768]).setReg 0 20000)).reg 0 = 7232 := by decide

/-- A7. -/
theorem test_mult_minus_one_squared : (after (running 0 [10, 32768, 32767, 32767])).reg 0 = 1 := by decide
/-- A6. -/
theorem test_mult_200_200 : (after (running 0 [10, 32768, 200, 200])).reg 0 = 7232 := by decide

/-- A17. -/
theorem test_mod_whole_words :
    (after (((running 0 [11, 32768, 32769, 32770]).setReg 1 40000).setReg 2 32769)).reg 0 = 7231 := by decide
/-- A16. -/
theorem test_mod_zero :
    ending (after (running 0 [11, 32768, 5, 0])) = (.faulted, some .divisionByZero, 0, 0, 0) := by decide

/-- A20. -/
theorem test_and_drops_bit_15 : (after ((running 0 [12, 32768, 32769, 32769]).setReg 1 40000)).reg 0 = 7232 := by decide
/-- A19. -/
theorem test_and : (after (running 0 [12, 32768, 12, 10])).reg 0 = 8 := by decide

/-- A24. -/
theorem test_or_drops_bit_15 :
    (after (((running 0 [13, 32768, 32769, 0]).setReg 1 32768).setReg 0 9)).reg 0 = 0 := by decide
/-- A22. -/
theorem test_or : (after (running 0 [13, 32768, 12, 10])).reg 0 = 14 := by decide

/-- A30. -/
theorem test_not_ignores_bit_15 : (after ((running 0 [14, 32768, 32769]).setReg 1 40000)).reg 0 = 25535 := by decide
/-- A26. -/
theorem test_not_zero : (after (running 0 [14, 32768, 0])).reg 0 = 32767 := by decide

/-- R4: the word read may be an instruction. -/
theorem test_rmem_own_opcode : (after (running 0 [15, 32771, 0])).reg 3 = 15 := by decide
/-- R3. -/
theorem test_rmem_out_of_range :
    ending (after ((running 0 [15, 32771, 32768]).setReg 0 32768)) =
      (.faulted, some .memoryOutOfRange, 0, 32768, 0) := by decide

/-- W4: the address was decoded before the write. -/
theorem test_wmem_own_operand :
    let t := after (running 0 [16, 1, 5])
    t.mem.read? 1 = some 5 ∧ t.mem.read? 5 = some 0 ∧ t.pc = 3 := by decide
/-- W2. -/
theorem test_wmem_out_of_range :
    let s := (running 0 [16, 32768, 7]).setReg 0 40000
    ending (after s) = (.faulted, some .memoryOutOfRange, 0, 40000, 0) ∧ (after s).mem = s.mem := by decide

/-- K2. -/
theorem test_call_near_the_end :
    let t := after (running 32766 [17, 100])
    t.stack = [32768] ∧ t.pc = 100 := by decide
/-- K6. -/
theorem test_call_no_stack :
    ending (after { running 0 [17, 100] with params := { Params.default with stackDepthMax := some 0 } }) =
      (.faulted, some .stackOverflow, 0, 0, 0) := by decide

/-- K3. -/
theorem test_ret :
    let t := after { running 50 [18] with stack := [12] }
    t.stack = [] ∧ t.pc = 12 := by decide
/-- K4. -/
theorem test_ret_empty : ending (after (running 50 [18])) = (.faulted, some .stackUnderflow, 50, 0, 50) := by decide

/-- A running machine whose host gives one answer to IN, and one whose sink gives one answer to OUT. -/
def asking (ws : List Word) (a : InAnswer) : State :=
  { running 0 ws with ports := { Ports.empty with inAnswers := [a] } }

def offering (ws : List Word) (a : OutAnswer) : State :=
  { running 0 ws with ports := { Ports.empty with outAnswers := [a] } }

/-- O2: the whole value. -/
theorem test_out_whole_word :
    let t := after ((offering [19, 32768] .accept).setReg 0 300)
    t.ports.output = [300] ∧ t.pc = 2 ∧ t.runState = .running := by decide
/-- O3. -/
theorem test_out_waits :
    let t := after (offering [19, 65] .none)
    t.runState = .waitOutput ∧ t.pc = 0 ∧ t.ports.output = [] := by decide

/-- N1. -/
theorem test_in_byte :
    let t := after (asking [20, 32772] (.byte 104))
    t.reg 4 = 104 ∧ t.pc = 2 := by decide
/-- N5: the byte is not consumed. -/
theorem test_in_literal_destination :
    let t := after (asking [20, 5] (.byte 97))
    ending t = (.faulted, some .invalidRegisterReference, 0, 5, 0) ∧ t.ports.inAnswers = [.byte 97] := by decide

/-- N6. -/
theorem test_noop : (after (running 5 [21])).pc = 6 := by decide
/-- N7. -/
theorem test_noop_at_the_end :
    ending (after (after (running 32767 [21]))) = (.faulted, some .memoryOutOfRange, 32768, 32768, 32768) := by decide

/-! ### Image, assembler, trace -/

/-- S9. -/
theorem test_image_words :
    imageWords [0x09, 0x00, 0x00, 0x80, 0x01, 0x80, 0x04, 0x00, 0x13, 0x00, 0x00, 0x80] =
      some [9, 32768, 32769, 4, 19, 32768] := by decide

/-- R62: the listing line the rule works out. -/
theorem test_listing_line :
    listingLine 0 (.add 32768 32769 4) = "0000: 0x0009 0x8000 0x8001 0x0004 : ADD reg0, reg1, 4".toList := by decide

/-- P3, P4: lines of the programs. -/
theorem test_assemble :
    assemble "CALL @9".toList = some [17, 9] ∧ assemble "OUT 'X'".toList = some [19, 88] ∧
    assemble "MULT reg2, reg0, reg1".toList = some [10, 32770, 32768, 32769] := by decide

/-- M10 and R81: a bare number in a D position. -/
theorem test_assemble_literal_destination :
    assemble "POP 100".toList = some [3, 100] ∧ assemble "SET 5, 1".toList = some [1, 5, 1] := by decide

/-- R31, R27: STATUS after a fault of kind 3. -/
theorem test_inspect_status :
    let t := after (running 50 [18])
    t.inspect .status = some (3 + 8 * 3) ∧ t.inspect .faultPc = some 50 := by decide

/-- R115: one record per committed step, of the start of the step. -/
theorem test_trace :
    (after { running 5 [1, 32768, 7] with params := { Params.default with traceInUse := true } }).ports.trace =
      [{ pc := 5, stackPointer := 0, regs := Vector.replicate 8 0, instr := .set 32768 7 }] := by decide

/-! ### Witnesses: for each statement with hypotheses, a state and operands that meet them -/

theorem witness_DecodeIffBeginsWithEncoding :
    decode [18, 5] = .ok .ret ∧ [18, 5] = encode .ret ++ [(5 : Word)] := ⟨rfl, rfl⟩

theorem witness_TableWordsAreTheirBits :
    decodeTableWord 64 0x0004800180000009 = some (.add 0x8000 0x8001 4) ∧ tableWord 64 0x0004800180000009 3 = 4 := by decide

/-- A four-word instruction at the last address at which it fits, before a pending command, and an engine that is IDLE. -/
theorem witness_PlacedInstructionRunsNext :
    let s := { running 32764 [] with runState := .idle, ports := { Ports.empty with commands := [.start] } }
    decodeTableWord 64 0x0004800180000009 = some (.add 0x8000 0x8001 4) ∧
    s.pc.toNat + (Instr.add 0x8000 0x8001 4).length ≤ 32768 ∧ s.runState.steps = false := by decide

theorem witness_DecoderRejectsByName :
    22 ≤ (22 : Word).toNat ∧ ¬ 22 ≤ (21 : Word).toNat ∧ operandKinds (8 : Word).toNat = some [.value, .address] := by
  decide

theorem witness_AssemblerReadsInstructionText : (Instr.jf 32775 32767).wellFormed = true := by decide

/-- The two sides of each class boundary of R53. -/
theorem witness_OperandWordsDecodeByClass :
    (32767 : Word).toNat < 32768 ∧ (32768 : Word).toNat = 32768 + (0 : Fin 8).val ∧
    (32775 : Word).toNat = 32768 + (7 : Fin 8).val ∧ 32776 ≤ (32776 : Word).toNat := by decide

theorem witness_TransferOperandsFollowTheParameter :
    State.reset.params.resolveTransferOperands = true ∧
    { Params.default with resolveTransferOperands := false }.resolveTransferOperands = false := by decide

/-- A state that meets the operand hypotheses of the D, V and D, V, V shapes, with the largest register value. -/
def operandState : State := { running 0 [] with stack := [4, 9] }.setReg 7 65535

theorem witness_SetCopiesTheValue :
    destIndex? 32775 = some 7 ∧ operandState.value? 32775 = some 65535 ∧
    firstRejected? true (Instr.set 32767 1).kinds [32767, 1] = some 32767 := by decide

theorem witness_PushAppendsTheValue :
    operandState.value? 32767 = some 32767 ∧ operandState.params.stackDepthMax = none ∧
    (let s := { operandState with params := { Params.default with stackDepthMax := some 3 } }
     s.value? 1 = some 1 ∧ s.params.stackDepthMax = some 3 ∧ s.stack.length + 1 = 3) ∧
    (let s := { operandState with params := { Params.default with stackDepthMax := some 2 } }
     s.value? 1 = some 1 ∧ s.params.stackDepthMax = some 2 ∧ s.stack.length = 2) ∧
    firstRejected? true (Instr.push 32776).kinds [32776] = some 32776 := by decide

theorem witness_PopMovesTheTopToTheRegister :
    destIndex? 32768 = some 0 ∧ operandState.stack = [4] ++ [9] ∧ State.reset.stack = [] ∧
    firstRejected? true (Instr.pop 32776).kinds [32776] = some 32776 := by decide

/-- The D, V, V shape: EQ, GT, ADD, MULT, AND, OR. -/
theorem witness_destValueValue :
    destIndex? 32768 = some 0 ∧ operandState.value? 32775 = some 65535 ∧ operandState.value? 32767 = some 32767 ∧
    firstRejected? true (Instr.add 32768 1 32776).kinds [32768, 1, 32776] = some 32776 := by decide

theorem witness_JmpGoesToTheTarget :
    operandState.transfer? 32775 = some 65535 ∧
    firstRejected? true (Instr.jmp 32776).kinds [32776] = some 32776 := by decide

/-- JT and JF: both outcomes of the test, and a bad target. -/
theorem witness_conditionalJumps :
    operandState.value? 0 = some 0 ∧ operandState.value? 32775 = some 65535 ∧ (65535 : Word) ≠ 0 ∧
    operandState.transfer? 32767 = some 32767 ∧
    firstRejected? true (Instr.jt 0 32776).kinds [0, 32776] = some 32776 := by decide

theorem witness_ModIsTheUnsignedRemainder :
    destIndex? 32768 = some 0 ∧ operandState.value? 32775 = some 65535 ∧ operandState.value? 1 = some 1 ∧
    (1 : Word) ≠ 0 ∧ operandState.value? 0 = some 0 ∧
    firstRejected? true (Instr.mod 1 1 0).kinds [1, 1, 0] = some 1 := by decide

theorem witness_NotComplements15Bits :
    destIndex? 32768 = some 0 ∧ operandState.value? 32775 = some 65535 ∧
    firstRejected? true (Instr.not 32768 65535).kinds [32768, 65535] = some 65535 := by decide

/-- RMEM and WMEM: the last address, and the first that does not exist. -/
theorem witness_memoryAccess :
    destIndex? 32768 = some 0 ∧ operandState.value? 32767 = some 32767 ∧ (32767 : Word).toNat < 32768 ∧
    (operandState.setReg 0 32768).value? 32768 = some 32768 ∧ 32768 ≤ (32768 : Word).toNat ∧
    firstRejected? true (Instr.rmem 0 0).kinds [0, 0] = some 0 ∧
    firstRejected? true (Instr.wmem 0 32776).kinds [0, 32776] = some 32776 := by decide

theorem witness_CallPushesTheReturnAddress :
    (running 32767 []).pc.toNat < 32768 ∧ operandState.transfer? 100 = some 100 ∧
    operandState.params.stackDepthMax = none ∧
    (let s := { running 32766 [] with params := { Params.default with stackDepthMax := some 1 } }
     s.transfer? 100 = some 100 ∧ s.params.stackDepthMax = some 1 ∧ s.stack.length + 1 = 1) ∧
    (let s := { running 32766 [] with params := { Params.default with stackDepthMax := some 0 } }
     s.pc.toNat < 32768 ∧ s.transfer? 100 = some 100 ∧ s.params.stackDepthMax = some 0 ∧ s.stack.length = 0) ∧
    firstRejected? true (Instr.call 32776).kinds [32776] = some 32776 := by decide

theorem witness_RetGoesToThePoppedWord : operandState.stack = [4] ++ [9] ∧ State.reset.stack = [] := by decide

theorem witness_OutEmitsTheWholeWord :
    (offering [] .accept).transfer? 65 = some 65 ∧ (offering [] .accept).ports.outAnswer = .accept ∧
    (offering [] .fail).ports.outAnswer = .fail ∧ (offering [] .none).ports.outAnswer = .none ∧
    (offering [] .accept).ports.outAnswers = [.accept] ∧ operandState.ports.outAnswers = [] ∧
    firstRejected? true (Instr.out 32776).kinds [32776] = some 32776 := by decide

theorem witness_InReceivesOneByte :
    destIndex? 32772 = some 4 ∧ (asking [] (.byte 255)).ports.inAnswer = .byte 255 ∧
    (asking [] .eof).ports.inAnswer = .eof ∧ (asking [] .fail).ports.inAnswer = .fail ∧
    (asking [] .none).ports.inAnswer = .none ∧ (asking [] .eof).ports.inAnswers = [.eof] ∧
    operandState.ports.inAnswers = [] ∧
    firstRejected? true (Instr.inp 5).kinds [5] = some 5 := by decide

theorem witness_OnlyTheDestinationRegisterChanges :
    exec (.add 32768 1 2) operandState = .next (ran (.add 32768 1 2) operandState) ∧
    (Instr.add 32768 1 2).dest? ≠ some 1 := ⟨rfl, by decide⟩

theorem witness_OnlyWmemWritesMemory :
    exec .noop operandState = .next (ran .noop operandState) ∧ Instr.noop.storeAddr? operandState = none ∧
    exec (.wmem 32767 1) operandState = .next (ran (.wmem 32767 1) operandState) ∧
    (Instr.wmem 32767 1).storeAddr? operandState = some 32767 := ⟨rfl, rfl, rfl, by decide⟩

theorem witness_StackChangesOnlyAtTheTop :
    exec (.push 3) operandState = .next (ran (.push 3) operandState) ∧ (ran (.push 3) operandState).stack = [4, 9, 3] :=
  ⟨rfl, by decide⟩

theorem witness_InstructionsLeaveControlStateAlone :
    exec .noop operandState = .next (ran .noop operandState) ∧ (ran .noop operandState).runState ≠ .faulted ∧
    (∀ a, Instr.noop ≠ .inp a) ∧ (∀ a, Instr.noop ≠ .out a) := ⟨rfl, by decide, nofun, nofun⟩

theorem witness_FeedCarriesExactlyTheTakenTransfers :
    exec (.jmp 7) operandState = .next (ran (.jmp 7) operandState) ∧ operandState.runState.steps = true := ⟨rfl, rfl⟩

theorem witness_FaultKindsByInstruction :
    exec (.mod 32768 1 0) operandState = .next (ran (.mod 32768 1 0) operandState) ∧
    operandState.runState.steps = true ∧ (ran (.mod 32768 1 0) operandState).failed := ⟨rfl, rfl, by decide⟩

/-- With transfer operands taken raw, a JT whose value operand is illegal still faults. -/
theorem witness_FaultKindsByInstruction_raw :
    let s := { operandState with params := { Params.default with resolveTransferOperands := false } }
    exec (.jt 32776 65535) s = .next (ran (.jt 32776 65535) s) ∧ s.runState.steps = true ∧
      (ran (.jt 32776 65535) s).failed ∧ s.params.resolveTransferOperands = false := ⟨rfl, rfl, by decide, rfl⟩

/-- At the last address at which a four-word instruction fits. -/
theorem witness_StepRunsTheDecodedInstruction :
    let s := running 32764 [9, 32768, 32767, 2]
    s.engineTurn ∧ ∀ k w, (encode (.add 32768 32767 2))[k]? = some w → s.mem.read? (s.pc.toNat + k) = some w := by
  refine ⟨by decide, fun k w h => ?_⟩
  have hk : k < 4 := (List.getElem?_eq_some_iff.mp h).1
  have : k = 0 ∨ k = 1 ∨ k = 2 ∨ k = 3 := by omega
  rcases this with rfl | rfl | rfl | rfl <;> (cases h; decide)

theorem witness_FetchPastTheMemoryFaults :
    (running 32768 []).engineTurn ∧ 32768 ≤ (running 32768 []).pc.toNat ∧ (running 32767 []).pc.toNat < 32768 := by decide

theorem witness_UnknownOpcodeFaults :
    let s := running 32767 [22]
    s.engineTurn ∧ s.mem.read? s.pc.toNat = some 22 ∧ 22 ≤ (22 : Word).toNat := by decide

/-- With a good and with a bad operand word before the end, and with none. -/
theorem witness_OperandPastTheMemoryFaults :
    (let s := running 32766 [1, 32768]
     s.engineTurn ∧ s.mem.read? s.pc.toNat = some 1 ∧ operandKinds 1 = some [.dest, .value] ∧ 32768 ≤ s.pc.toNat + 2 ∧
       firstRejected? true [.dest, .value] [32768] = none) ∧
    firstRejected? true [.dest, .value] [5] = some 5 ∧
    (let s := running 32767 [2]
     s.engineTurn ∧ s.mem.read? s.pc.toNat = some 2 ∧ operandKinds 2 = some [.value] ∧ 32768 ≤ s.pc.toNat + 1) := by
  decide

theorem witness_EveryFaultIsPrecise :
    let s := running 50 [18]
    s.engineTurn ∧ step s = .next (after s) ∧ (after s).failed := ⟨by decide, rfl, by decide⟩

theorem witness_HoldIsTakenAgain :
    let s := asking [20, 32768] .none
    s.engineTurn ∧ step s = .next (after s) ∧ (after s).waiting := ⟨by decide, rfl, by decide⟩

theorem witness_EndedRunsAreFinalUntilReset :
    (let s := after (running 0 [0])
     s.succeeded ∧ s.command ≠ .reset) ∧
    (let s := { after (running 0 [18]) with ports := { Ports.empty with commands := [.reset] } }
     s.failed ∧ s.command = .reset) := by decide

/-- A machine to which the host gives one command. -/
def commanded (c : HostCommand) (r : RunState) : State :=
  { State.reset with runState := r, ports := { Ports.empty with commands := [c] } }

theorem witness_ResetGivesEveryFieldItsValue : (commanded .reset .running).command = .reset := rfl

theorem witness_LoadAndStartActOnlyInIdle :
    (commanded .start .idle).command = .start ∧ (commanded .start .idle).runState = .idle ∧
    (commanded .start .halted).runState ≠ .idle ∧
    (commanded (.load 32767 9) .idle).command = .load 32767 9 ∧ (commanded (.load 0 9) .running).runState ≠ .idle := by
  decide

theorem witness_ImageIsLittleEndianWords :
    [(7 : Byte)].length % 2 = 1 ∧ ([] : List Byte).length % 2 = 0 ∧ imageWords [1, 2] = some [0x0201] ∧ [(0x0201 : Word)][0]? = some 0x0201 := by decide

theorem witness_BootLoadsTheImageAndStarts :
    imageWords [0x15, 0x00, 0x00, 0x80] = some [21, 32768] ∧
    bootCommands [0x15, 0x00, 0x00, 0x80] = some [.reset, .load 0 21, .load 1 32768, .start] := by decide

/-- An image of zero bytes, two a word. -/
theorem imageWords_zeros : ∀ n : Nat, imageWords (List.replicate (2 * n) 0) = some (List.replicate n 0)
  | 0 => rfl
  | n + 1 => by
    rw [show 2 * (n + 1) = 2 * n + 1 + 1 by omega]
    simp only [List.replicate_succ, imageWords, imageWords_zeros n, Option.map_some]
    rfl

/-- The loader accepts an image of zero bytes exactly when it has at most 32768 words. -/
theorem bootCommands_zeros (n : Nat) : (bootCommands (List.replicate (2 * n) 0)).isSome = decide (n ≤ 32768) := by
  simp only [bootCommands, imageWords_zeros, List.length_replicate]
  split <;> simp_all

/-- The longest image that is accepted, and the shortest that is too long. -/
theorem witness_BootLoadsTheImageAndStarts_limit :
    (bootCommands (List.replicate (2 * 32768) 0)).isSome = true ∧
    (bootCommands (List.replicate (2 * 32769) 0)).isSome = false :=
  ⟨bootCommands_zeros 32768, bootCommands_zeros 32769⟩

theorem witness_StatusCodesAreTheTable :
    State.reset.runState = .idle ∧ (running 0 []).runState = .running ∧ (after (running 0 [0])).runState = .halted ∧
    (after (running 0 [18])).runState = .faulted ∧ (after (running 0 [18])).kind = some .stackUnderflow ∧
    (after (asking [20, 32768] .none)).runState = .waitInput ∧ (after (offering [19, 1] .none)).runState = .waitOutput ∧
    (after (asking [20, 32768] .eof)).kind = some .inputExhausted ∧ State.reset.kind = none := by decide

theorem witness_InspectionShowsTheState :
    (running 0 []).runState.steps = true ∧ State.reset.runState.steps = false := by decide

/-- A running machine at a NOOP meets the invariant, and its step answers a next state. -/
theorem witness_EveryStepKeepsTheInvariant :
    (running 0 [21]).Inv ∧ step (running 0 [21]) = .next (after (running 0 [21])) := by
  refine ⟨⟨Memory.wf_place Memory.wf_nil 0 [21], nofun, nofun, nofun, nofun, fun _ => ?_, nofun, nofun⟩, rfl⟩
  decide

/-- The invariant's clauses about ends and waits are met by states that are there. -/
theorem witness_invariant_clauses :
    (after (running 0 [0])).runState = .halted ∧ (after (running 0 [18])).runState = .faulted ∧
    (after (asking [20, 32768] .none)).runState = .waitInput ∧
    (after (offering [19, 65] .none)).runState = .waitOutput := by decide

theorem witness_OnlyTheHostsAnswersAreFreeInputs :
    let s := asking [20, 32768] (.byte 1)
    let s' := { s with ports := { s.ports with inAnswers := [.byte 1, .eof], output := [7], outAnswers := [] } }
    SameBlock s s' ∧ s'.params = s.params ∧ s'.command = s.command ∧ s'.ports.inAnswer = s.ports.inAnswer ∧
      s'.ports.outAnswer = s.ports.outAnswer ∧ step s = .next (after s) ∧ step s' = .next (after s') :=
  ⟨⟨rfl, rfl, rfl, rfl, rfl, rfl, rfl, rfl⟩, rfl, rfl, rfl, rfl, rfl, rfl⟩

theorem witness_OptionalOutputsChangeNoState :
    let s := running 10 [6, 100]
    let s' := { s with params := { s.params with feedInUse := true, traceInUse := true } }
    step s = .next (after s) ∧ step s' = .next (after s') ∧ (after s').ports.feed = [100] := ⟨rfl, rfl, by decide⟩

theorem witness_EffectsDoNotDependOnThePlace :
    exec (.call 7) operandState = .next (ran (.call 7) operandState) ∧
    exec (.call 7) { operandState with pc := 99 } = .next (ran (.call 7) { operandState with pc := 99 }) := ⟨rfl, rfl⟩

theorem witness_RetReturnsAfterTheCall :
    let s := running 10 [17, 100]
    s.pc.toNat < 32768 ∧ s.transfer? 100 = some 100 ∧ exec (.call 100) s = .next (ran (.call 100) s) ∧
      ¬ (ran (.call 100) s).failed := ⟨by decide, by decide, rfl, by decide⟩

theorem witness_WrittenWordIsReadAndFetched :
    let s := running 0 [16, 100, 1234]
    s.value? 100 = some 100 ∧ s.value? 1234 = some 1234 ∧ (100 : Word).toNat < 32768 ∧
      exec (.wmem 100 1234) s = .next (ran (.wmem 100 1234) s) ∧ destIndex? 32771 = some 3 ∧
      (ran (.wmem 100 1234) s).value? 100 = some 100 := ⟨by decide, by decide, by decide, rfl, by decide, by decide⟩

theorem witness_CanonicalMemoriesThatReadAlikeAreEqual :
    Memory.wf [(0, 21), (65535, 128)] ∧ Memory.wf (Memory.place [] 0 [21]) := by decide

end Sys2Proof.Tests
end

section
/-! PROOFS. What fetch answers: an instruction whose opcode is the memory word at the pc, or a fault whose value fits its
kind (R48, R49, R57, R65, R104). -/

namespace Sys2Proof.Machine

/-- An opcode takes at most three operand words (R48, R52). -/
theorem operandKinds_length_le {n : Nat} {kinds : List Kind} (h : operandKinds n = some kinds) : kinds.length ≤ 3 := by
  unfold operandKinds at h
  split at h <;> cases h <;> decide

/-- The instruction read for an opcode has that opcode. -/
theorem readInstr_opcode {n : Nat} {ws : List Word} {i : Instr} (h : readInstr n ws = some i) : i.opcode = n := by
  unfold readInstr at h
  split at h <;> cases h <;> rfl

/-- With as many operand words as the opcode takes, there is an instruction to read (R50). -/
theorem readInstr_isSome {n : Nat} {kinds : List Kind} {ws : List Word} (h : operandKinds n = some kinds)
    (hl : kinds.length ≤ ws.length) : (readInstr n ws).isSome = true := by
  unfold operandKinds at h
  split at h <;> cases h <;> rcases ws with _ | ⟨a, _ | ⟨b, _ | ⟨c, ws⟩⟩⟩ <;> simp_all [readInstr]

/-- A decoded instruction's opcode is the whole first word (R48). -/
theorem decode_ok_opcode {op : Word} {ws : List Word} {i : Instr} (h : decode (op :: ws) = .ok i) :
    op = BitVec.ofNat 16 i.opcode := by
  simp only [decode] at h
  split at h
  · cases h
  · split at h
    · cases h
      simp [readInstr_opcode ‹_›]
    · cases h

/-- Why words are rejected: there is none, or the first is no opcode, or fewer than three follow, too few for the opcode. -/
theorem decode_error_cases {ws : List Word} {r : Reject} (h : decode ws = .error r) :
    (ws = [] ∧ r = .noOpcodeWord) ∨ (∃ op, r = .illegalOpcode op ∧ 22 ≤ op.toNat) ∨
      ∃ op kinds present, ws = op :: present ∧ present.length < 3 ∧ r = .truncated kinds present := by
  cases ws with
  | nil => cases h; exact .inl ⟨rfl, rfl⟩
  | cons op present =>
    simp only [decode] at h
    split at h
    · cases h
      exact .inr (.inl ⟨op, rfl, operandKinds_eq_none.1 ‹_›⟩)
    · rename_i kinds hk
      split at h
      · cases h
      · rename_i hr
        cases h
        have short : present.length < kinds.length := by
          by_contra hl
          simpa [hr] using readInstr_isSome hk (Nat.not_lt.1 hl)
        exact .inr (.inr ⟨op, kinds, present, rfl, Nat.lt_of_lt_of_le short (operandKinds_length_le hk), rfl⟩)

/-- The words fetched are four, or as many as there are up to the end of the memory (R57). -/
theorem fetchWindow_length (m : Memory) (pc : Nat) : (fetchWindow m pc).length = min 4 (32768 - pc) := by
  simp only [fetchWindow, Memory.read?, Config.memWords]
  split_ifs <;> simp <;> omega

/-- The first word fetched is the memory word at the pc (R65). -/
theorem fetchWindow_cons (m : Memory) {pc : Nat} (h : pc < 32768) :
    ∃ ws, fetchWindow m pc = m.readWord pc :: ws := by
  simp [fetchWindow, Memory.read?, h]

/-- At the pc of a fetched instruction stands its opcode word (R48, R65). -/
theorem fetch_ok_opcode {s : State} {i : Instr} (h : fetch s = .ok i) :
    s.pc.toNat < 32768 ∧ s.mem.read? s.pc.toNat = some (BitVec.ofNat 16 i.opcode) := by
  have hd : decode (fetchWindow s.mem s.pc.toNat) = .ok i := by
    unfold fetch at h
    split at h <;> cases h
    assumption
  have hpc : s.pc.toNat < 32768 := by
    by_contra hc
    have hn : fetchWindow s.mem s.pc.toNat = [] := by
      rw [← List.length_eq_zero_iff, fetchWindow_length]; omega
    rw [hn] at hd
    cases hd
  obtain ⟨ws, hw⟩ := fetchWindow_cons s.mem hpc
  rw [hw] at hd
  exact ⟨hpc, by simp [Memory.read?, hpc, decode_ok_opcode hd]⟩

/-- An operand word that some kind does not accept is no register reference (R53, R59). -/
theorem operandAccepted_eq_false {resolve : Bool} {kind : Kind} {raw : Word}
    (h : operandAccepted resolve kind raw = false) : raw.toNat < 32768 ∨ 32776 ≤ raw.toNat := by
  cases kind with
  | dest => exact destIndex?_eq_none.1 (by simpa [operandAccepted] using h)
  | value | address | char => simp [operandAccepted] at h; omega

theorem firstRejected?_eq_some {resolve : Bool} {kinds : List Kind} {raws : List Word} {raw : Word}
    (h : firstRejected? resolve kinds raws = some raw) : ∃ kind, operandAccepted resolve kind raw = false := by
  obtain ⟨⟨kind, _⟩, hp, rfl⟩ := Option.map_eq_some_iff.1 h
  exact ⟨kind, by simpa using List.find?_some hp⟩

/-- A fault of fetch has a value that fits its kind (R65, R49, R57, R104). -/
theorem fetch_error_fits {s : State} {k : FaultKind} {v : Word} (h : fetch s = .error (k, v)) :
    faultValueFits (s.raise k v) k := by
  unfold fetch at h
  split at h
  · cases h
  rename_i r hr
  have hlen := fetchWindow_length s.mem s.pc.toNat
  obtain ⟨hw, rfl⟩ | ⟨op, rfl, hop⟩ | ⟨op, kinds, present, hw, hp, rfl⟩ := decode_error_cases hr
  · cases h
    have : 32768 ≤ s.pc.toNat := by simp [hw] at hlen; omega
    exact this
  · cases h
    exact hop
  · simp only [rejectFault, truncatedFault] at h
    split at h <;> cases h
    · obtain ⟨kind, hk⟩ := firstRejected?_eq_some ‹_›
      exact operandAccepted_eq_false hk
    · have : s.pc.toNat + (1 + present.length) = 32768 := by simp [hw] at hlen; omega
      simp only [faultValueFits, Config.memWords, State.raise_faultValue, BitVec.toNat_add, BitVec.toNat_ofNat]
      omega

end Sys2Proof.Machine
end

section
/-! PROOFS. Every step keeps the invariant: the host's commands, a fault, and the three ends of an instruction. -/

namespace Sys2Proof.Machine

/-! ### Runs that go on, and runs that have halted -/

/-- A running state meets the invariant when its memory, its stack and its fault record do. -/
theorem State.inv_of_running {s : State} (run : s.runState = .running) (memory : s.mem.wf)
    (stackBound : ∀ n, s.params.stackDepthMax = some n → s.stack.length ≤ n)
    (record : s.kind = none ∧ s.faultPc = 0 ∧ s.faultValue = 0) : s.Inv where
  memory := memory
  stackBound := stackBound
  idle := by simp [run]
  halted := by simp [run]
  faulted := by simp [run]
  noFault _ := record
  waitInput := by simp [run]
  waitOutput := by simp [run]

/-- A halted state meets the invariant when besides it stands one word past a HALT. -/
theorem State.inv_of_halted {s : State} (run : s.runState = .halted) (memory : s.mem.wf)
    (stackBound : ∀ n, s.params.stackDepthMax = some n → s.stack.length ≤ n)
    (record : s.kind = none ∧ s.faultPc = 0 ∧ s.faultValue = 0)
    (pastHalt : 1 ≤ s.pc.toNat ∧ s.mem.read? (s.pc.toNat - 1) = some 0) : s.Inv where
  memory := memory
  stackBound := stackBound
  idle := by simp [run]
  halted _ := pastHalt
  faulted := by simp [run]
  noFault _ := record
  waitInput := by simp [run]
  waitOutput := by simp [run]

/-! ### The host's commands (R118 to R120) -/

/-- The invariant says nothing of the host's commands. -/
theorem State.Inv.dropCommand {s : State} (h : s.Inv) : s.dropCommand.Inv :=
  ⟨h.memory, h.stackBound, h.idle, h.halted, h.faulted, h.noFault, h.waitInput, h.waitOutput⟩

theorem State.inv_resetByHost (s : State) : s.resetByHost.Inv where
  memory := Memory.wf_nil
  stackBound n _ := Nat.zero_le n
  idle _ := ⟨rfl, rfl, rfl, rfl, rfl, rfl⟩
  halted := nofun
  faulted := nofun
  noFault _ := ⟨rfl, rfl, rfl⟩
  waitInput := nofun
  waitOutput := nofun

theorem State.Inv.loadByHost {s : State} (h : s.Inv) (addr : BitVec 15) (data : Word) :
    (s.loadByHost addr data).Inv := by
  unfold State.loadByHost
  split
  · rename_i hidle
    exact {
      memory := Memory.wf_writeWord h.memory addr.isLt data
      stackBound := h.stackBound
      idle := h.idle
      halted := by simp [hidle]
      faulted := by simp [hidle]
      noFault := h.noFault
      waitInput := by simp [hidle]
      waitOutput := by simp [hidle] }
  · exact h

theorem State.Inv.startByHost {s : State} (h : s.Inv) : s.startByHost.Inv := by
  unfold State.startByHost
  split
  · exact State.inv_of_running rfl h.memory h.stackBound (h.noFault (by simp [*]))
  · exact h

theorem State.Inv.obey {s : State} (h : s.Inv) (c : HostCommand) : (s.obey c).Inv := by
  cases c with
  | none => exact h
  | reset => exact s.inv_resetByHost
  | load addr data => exact h.loadByHost addr data
  | start => exact h.startByHost

/-! ### The engine -/

/-- Taking a fault keeps the invariant where its value fits its kind (R104, R105). -/
theorem State.Inv.raise {s : State} (h : s.Inv) {k : FaultKind} {v : Word} (fits : faultValueFits (s.raise k v) k) :
    (s.raise k v).Inv where
  memory := h.memory
  stackBound := h.stackBound
  idle := nofun
  halted := nofun
  faulted _ := ⟨rfl, k, rfl, fits⟩
  noFault hn := absurd rfl hn
  waitInput := nofun
  waitOutput := nofun

/-- A state in which the engine steps has no fault, so its fault record is clear. -/
theorem State.Inv.record_of_steps {s : State} (h : s.Inv) (hs : s.runState.steps = true) :
    s.kind = none ∧ s.faultPc = 0 ∧ s.faultValue = 0 := h.noFault fun hf => by simp [hf, RunState.steps] at hs

/-- Where the engine steps, a commit that leaves the run state ends RUNNING (R70). -/
theorem RunState.resumed_of_steps {r : RunState} (h : r.steps = true) : r.resumed = .running := by
  cases r with
  | running | waitInput | waitOutput => rfl
  | idle | halted | faulted => cases h

/-- Other answers of the host still to come make no difference to a run that has started. -/
theorem State.Inv.withPorts {s : State} (h : s.Inv) (hs : s.runState.steps = true) (p : Ports) :
    State.Inv { s with ports := p } where
  memory := h.memory
  stackBound := h.stackBound
  idle hi := by simp_all [RunState.steps]
  halted := h.halted
  faulted := h.faulted
  noFault := h.noFault
  waitInput := h.waitInput
  waitOutput := h.waitOutput

/-- Holding keeps the invariant, at an IN for input and at an OUT for the sink (R116). -/
theorem State.Inv.hold {s : State} (h : s.Inv) (hs : s.runState.steps = true) {w : RunState}
    (waits : (w = .waitInput ∧ s.mem.read? s.pc.toNat = some 20) ∨
      (w = .waitOutput ∧ s.mem.read? s.pc.toNat = some 19)) : (s.hold w).Inv := by
  have record := h.record_of_steps hs
  obtain ⟨rfl, hw⟩ | ⟨rfl, hw⟩ := waits
  · exact ⟨h.memory, h.stackBound, nofun, nofun, nofun, fun _ => record, fun _ => hw, nofun⟩
  · exact ⟨h.memory, h.stackBound, nofun, nofun, nofun, fun _ => record, nofun, fun _ => hw⟩

/-- The arm of the instruction that stands at the pc keeps the invariant. -/
theorem State.Inv.exec {s t : State} {i : Instr} (h : s.Inv) (hs : s.runState.steps = true)
    (hpc : s.pc.toNat < 32768) (hi : s.mem.read? s.pc.toNat = some (BitVec.ofNat 16 i.opcode))
    (ht : Machine.exec i s = .next t) : t.Inv := by
  cases exec_ends ht with
  | raised k v p _ fits => exact (h.withPorts hs p).raise fits
  | held w p _ waits =>
    refine (h.withPorts hs p).hold hs ?_
    obtain ⟨rfl, a, rfl⟩ | ⟨rfl, a, rfl⟩ := waits
    · exact .inl ⟨rfl, hi⟩
    · exact .inr ⟨rfl, hi⟩
  | committed n u record params _ canonical mem stack run =>
    obtain ⟨hk, hp, hv⟩ := record
    have clear : u.kind = none ∧ u.faultPc = 0 ∧ u.faultValue = 0 := by
      rw [hk, hp, hv]; exact h.record_of_steps hs
    have bound : ∀ m, u.params.stackDepthMax = some m → u.stack.length ≤ m := fun m hm =>
      have hm : s.params.stackDepthMax = some m := params ▸ hm
      stack m hm (h.stackBound m hm)
    obtain ⟨hr, -⟩ | ⟨hr, rfl, rfl⟩ := run
    · exact State.inv_of_running (by simp [hr, RunState.resumed_of_steps hs]) (canonical h.memory) bound clear
    · have hn : (s.nextPc .halt).toNat = s.pc.toNat + 1 := nextPc_toNat s .halt hpc (by decide)
      have hmem : u.mem = s.mem := mem.resolve_right nofun
      refine State.inv_of_halted (by simp [hr, RunState.resumed]) (canonical h.memory) bound clear ?_
      simp only [State.commit_pc, State.commit_mem, hn, hmem, Nat.add_sub_cancel]
      exact ⟨Nat.le_add_left 1 _, hi⟩

/-- Where no run is in progress and the host gives no command, a step only drops the empty command (R64). -/
theorem step_noCommand_of_not_steps {s : State} (hc : s.command = .none) (hs : s.runState.steps = false) :
    step s = .next s.dropCommand := by simp [step, machineStep, hc, engineStep, hs]

/-- Every step of the machine keeps the invariant. -/
theorem State.Inv.step {s t : State} (h : s.Inv) (ht : Machine.step s = .next t) : t.Inv := by
  by_cases hc : s.command = .none
  · cases hs : s.runState.steps with
    | true =>
      rw [step_engineTurn ⟨hc, hs⟩] at ht
      cases hf : fetch s with
      | ok i =>
        obtain ⟨hpc, hi⟩ := fetch_ok_opcode hf
        exact h.dropCommand.exec hs hpc hi (by simpa [hf] using ht)
      | error e =>
        obtain ⟨k, v⟩ := e
        rw [hf] at ht
        cases ht
        exact h.dropCommand.raise (fetch_error_fits hf)
    | false =>
      rw [step_noCommand_of_not_steps hc hs] at ht
      cases ht
      exact h.dropCommand
  · rw [step_command hc] at ht
    cases ht
    exact h.dropCommand.obey s.command

/-- Settles O50: by the case split of the step, a command of the host, a fault of fetch, or an instruction. -/
theorem everyStepKeepsTheInvariant : Obligations.EveryStepKeepsTheInvariant := fun _ _ h ht => h.step ht

end Sys2Proof.Machine
end

section
/-! PROOFS. The frame of an instruction: which registers, which stack entries and which of the host's answers its step can
touch (R17, R21 to R24, R70), said once for each shared operation and from there for every instruction. -/

namespace Sys2Proof.Machine

/-- How an instruction may change the stack (R21 to R24): by one entry at the top, and only the four that push or pop. -/
def StackFrame (before after : List Word) : Instr → Prop
  | .push _ | .call _ => after = before ∨ ∃ v, after = before ++ [v]
  | .pop _ | .ret => after = before ∨ ∃ v, before = after ++ [v]
  | _ => after = before

theorem StackFrame.refl (stack : List Word) (i : Instr) : StackFrame stack stack i := by
  cases i with
  | push | call | pop | ret => exact .inl rfl
  | _ => rfl

/-- What a step from `s` that runs the instruction `i` may have changed at `t`: the destination register, the top of the
stack, and, of the host's answers and the output, those of IN and of OUT alone. -/
structure ExecFrame (i : Instr) (s t : State) : Prop where
  regs : ∀ r, i.dest? ≠ some r → t.reg r = s.reg r
  stack : StackFrame s.stack t.stack i
  input : (∀ a, i ≠ .inp a) → NoInput s t
  output : (∀ a, i ≠ .out a) → NoOutput s t

namespace ExecFrame

variable {i : Instr} {s t : State}

/-! ### States within the frame -/

theorem of_same (hr : t.regs = s.regs) (hs : t.stack = s.stack) (hp : t.ports = s.ports) : ExecFrame i s t where
  regs r _ := by simp [State.reg, hr]
  stack := hs ▸ .refl _ i
  input _ := by simp [NoInput, hp]
  output _ := by simp [NoOutput, hp]

theorem refl : ExecFrame i s s := of_same rfl rfl rfl

theorem of_stack {stack : List Word} (h : StackFrame s.stack stack i) : ExecFrame i s { s with stack := stack } :=
  { (refl : ExecFrame i s s) with stack := h }

theorem setReg {d : Fin 8} {v : Word} (h : ExecFrame i s t) (hd : i.dest? = some d) : ExecFrame i s (t.setReg d v) where
  regs r hr := by
    have : r ≠ d := fun e => hr (e ▸ hd)
    simp [this, h.regs r hr]
  stack := h.stack
  input := h.input
  output := h.output

theorem feedAddr {a : Word} (h : ExecFrame i s t) : ExecFrame i s (t.feedAddr a) :=
  ⟨h.regs, h.stack, h.input, h.output⟩

theorem takeIn {a : Word} : ExecFrame (.inp a) s { s with ports := s.ports.takeIn } where
  regs _ _ := rfl
  stack := rfl
  input h := absurd rfl (h a)
  output _ := by simp [NoOutput]

theorem takeOut {a : Word} (output : List Word) :
    ExecFrame (.out a) s { s with ports := { s.ports.takeOut with output := output } } where
  regs _ _ := rfl
  stack := rfl
  input _ := by simp [NoInput]
  output h := absurd rfl (h a)

/-! ### How a step ends -/

theorem raise {k : FaultKind} {v : Word} (h : ExecFrame i s t) : ExecFrame i s (t.raise k v) :=
  ⟨h.regs, h.stack, h.input, h.output⟩

theorem hold {w : RunState} (h : ExecFrame i s t) : ExecFrame i s (t.hold w) := ⟨h.regs, h.stack, h.input, h.output⟩

theorem commit {n : Word} (h : ExecFrame i s t) : ExecFrame i s (s.commit i n t) := ⟨h.regs, h.stack, h.input, h.output⟩

/-! ### The shared operations -/

theorem operand {α : Type} {raw : Word} {d : Option α} {k : α → State} (h : ∀ v, d = some v → ExecFrame i s (k v)) :
    ExecFrame i s (withOperand s raw d k) := by
  rcases withOperand_cases s raw d k with ⟨v, hv, e⟩ | ⟨-, e⟩ <;> rw [e]
  · exact h v hv
  · exact refl.raise

theorem push {v : Word} {k : State → State} (h : ExecFrame i s (k { s with stack := s.stack ++ [v] })) :
    ExecFrame i s (withPush s v k) := by
  rcases withPush_cases s v k with ⟨-, e⟩ | ⟨n, -, -, e⟩ <;> rw [e]
  · exact h
  · exact refl.raise

theorem pop {k : Word → State → State}
    (h : ∀ rest v, s.stack = rest ++ [v] → ExecFrame i s (k v { s with stack := rest })) :
    ExecFrame i s (withPop s k) := by
  rcases withPop_cases s k with ⟨rest, v, hs, e⟩ | ⟨-, e⟩ <;> rw [e]
  · exact h rest v hs
  · exact refl.raise

theorem memRead {addr : Word} {k : Word → State} (h : ∀ v, ExecFrame i s (k v)) :
    ExecFrame i s (withMemRead s addr k) := by
  rcases withMemRead_cases s addr k with ⟨-, e⟩ | ⟨-, e⟩ <;> rw [e]
  · exact h _
  · exact refl.raise

theorem memWrite {addr v : Word} {k : State → State} (h : ∀ m, ExecFrame i s (k { s with mem := m })) :
    ExecFrame i s (withMemWrite s addr v k) := by
  rcases withMemWrite_cases s addr v k with ⟨-, e⟩ | ⟨-, e⟩ <;> rw [e]
  · exact h _
  · exact refl.raise

theorem receive {a : Word} {k : Byte → State → State}
    (h : ∀ b, ExecFrame (.inp a) s (k b { s with ports := s.ports.takeIn })) :
    ExecFrame (.inp a) s (withReceive s k) := by
  rcases withReceive_cases s k with ⟨b, -, e⟩ | ⟨-, e⟩ | ⟨-, e⟩ | ⟨-, e⟩ <;> rw [e]
  · exact h b
  · exact takeIn.raise
  · exact takeIn.raise
  · exact takeIn.hold

theorem emit {a v : Word} {k : State → State}
    (h : ∀ output, ExecFrame (.out a) s (k { s with ports := { s.ports.takeOut with output := output } })) :
    ExecFrame (.out a) s (withEmit s v k) := by
  rcases withEmit_cases s v k with ⟨-, e⟩ | ⟨-, e⟩ | ⟨-, e⟩ <;> rw [e]
  · exact h _
  · exact (takeOut _).raise
  · exact (takeOut _).hold

theorem destValue {a b : Word} {f : Word → Word} (hd : i.dest? = destIndex? a) :
    ExecFrame i s (destValue i a b f s) :=
  operand fun _ h => operand fun _ _ => (refl.setReg (hd.trans h)).commit

theorem destValueValue {a b c : Word} {f : Word → Word → Word} (hd : i.dest? = destIndex? a) :
    ExecFrame i s (destValueValue i a b c f s) :=
  operand fun _ h => operand fun _ _ => operand fun _ _ => (refl.setReg (hd.trans h)).commit

theorem jumpIf {taken : Bool} {target : Word} : ExecFrame i s (jumpIf i taken target s) := by
  cases taken with
  | true => exact refl.feedAddr.commit
  | false => exact refl.commit

end ExecFrame

/-- Every instruction's step stays within its frame. -/
theorem exec_frame {i : Instr} {s t : State} (h : exec i s = .next t) : ExecFrame i s t := by
  cases i with
  | halt => cases h; exact .commit <| .of_same rfl rfl rfl
  | noop => cases h; exact .commit .refl
  | set | not => cases h; exact .destValue rfl
  | eq | gt | add | mult | and | or => cases h; exact .destValueValue rfl
  | mod a b c =>
    cases h
    refine .operand fun d hd => .operand fun B _ => .operand fun C _ => ?_
    split
    · exact .raise .refl
    · exact .commit (.setReg .refl hd)
  | push a => cases h; exact .operand fun A _ => .push <| .commit <| .of_stack <| .inr ⟨A, rfl⟩
  | pop a =>
    cases h
    exact .operand fun d hd => .pop fun rest v hs => .commit <| .setReg (.of_stack (.inr ⟨v, hs⟩)) hd
  | jmp a => cases h; exact .operand fun A _ => .commit <| .feedAddr .refl
  | jt | jf => cases h; exact .operand fun A _ => .operand fun B _ => .jumpIf
  | rmem a b =>
    cases h
    exact .operand fun d hd => .operand fun B _ => .memRead fun v => .commit <| .setReg .refl hd
  | wmem a b =>
    cases h
    exact .operand fun A _ => .operand fun B _ => .memWrite fun m => .commit <| .of_same rfl rfl rfl
  | call a =>
    cases h
    exact .operand fun A _ => .push <| .commit <| .feedAddr <| .of_stack <| .inr ⟨_, rfl⟩
  | ret => cases h; exact .pop fun rest v hs => .commit <| .feedAddr <| .of_stack <| .inr ⟨v, hs⟩
  | out a => cases h; exact .operand fun A _ => .emit fun output => .commit <| .takeOut output
  | inp a => cases h; exact .operand fun d hd => .receive fun b => .commit <| .setReg .takeIn hd

/-- The parameters and the host's commands outlast every instruction, and the fault record outlasts every instruction that
does not fault (R70, R105). -/
theorem exec_surroundings {i : Instr} {s t : State} (h : exec i s = .next t) :
    SameSurroundings s t ∧ (t.runState ≠ .faulted → SameFaultRecord s t) := by
  cases exec_ends h with
  | raised k v p ports _ => exact ⟨⟨rfl, ports.commands⟩, fun hf => absurd rfl hf⟩
  | held w p ports _ => exact ⟨⟨rfl, ports.commands⟩, fun _ => ⟨rfl, rfl, rfl⟩⟩
  | committed n u record params commands => exact ⟨⟨params, commands⟩, fun _ => record⟩

/-- Settles O29, by the frame of the instruction. -/
theorem onlyTheDestinationRegisterChanges : Obligations.OnlyTheDestinationRegisterChanges :=
  fun _ _ _ h => (exec_frame h).regs

/-- Settles O31, by the frame of the instruction. -/
theorem stackChangesOnlyAtTheTop : Obligations.StackChangesOnlyAtTheTop := by
  intro i s t h
  have hs := (exec_frame h).stack
  cases i <;> exact hs

/-- Settles O32, by the ends and the frame of the instruction. -/
theorem instructionsLeaveControlStateAlone : Obligations.InstructionsLeaveControlStateAlone := by
  intro i s t h
  obtain ⟨surroundings, record⟩ := exec_surroundings h
  exact ⟨surroundings, record, (exec_frame h).input, (exec_frame h).output⟩

end Sys2Proof.Machine
end

section
/-! PROOFS. What the host sees (R27, R31, R32, R104): the two fields of `STATUS`, and the answers of the `inspect` port. -/

namespace Sys2Proof.Machine

/-! ### STATUS -/

/-- STATE has three bits (R27). -/
theorem RunState.code_lt (r : RunState) : r.code < 8 := by cases r <;> decide

/-- The code that `STATUS.KIND` shows for a fault kind, or for none (R104). -/
def kindCode (kind : Option FaultKind) : Nat := kind.elim 0 FaultKind.code

/-- With KIND at most 8 the bits from 7 on read 0 (R27). -/
theorem kindCode_le (kind : Option FaultKind) : kindCode kind ≤ 8 := by
  cases kind with
  | none => decide
  | some k => cases k <;> decide

theorem status_toNat (s : State) : s.status.toNat = s.runState.code + 8 * kindCode s.kind := by
  have := s.runState.code_lt
  have := kindCode_le s.kind
  rw [State.status, ← kindCode, BitVec.toNat_ofNat]
  omega

theorem status_mod_eight (s : State) : s.status.toNat % 8 = s.runState.code := by
  have := s.runState.code_lt
  rw [status_toNat]
  omega

theorem status_div_eight (s : State) : s.status.toNat / 8 = kindCode s.kind := by
  have := s.runState.code_lt
  rw [status_toNat]
  omega

/-- Settles O47, from the two fields of `STATUS`. -/
theorem statusCodesAreTheTable : Obligations.StatusCodesAreTheTable := by
  intro s
  rw [status_mod_eight, status_div_eight]
  and_intros <;> (intro h; rw [h]; rfl)

/-! ### Inspection -/

/-- The host inspects exactly where the engine takes no steps (R31, R64). -/
theorem inspectable_eq_not_steps (s : State) : s.inspectable = !s.runState.steps := by
  unfold State.inspectable
  cases s.runState <;> rfl

theorem inspect_of_steps {s : State} (h : s.runState.steps = true) (q : InspectQuery) : s.inspect q = none := by
  simp [State.inspect, inspectable_eq_not_steps, h]

/-- The memory words a host can ask for are all inside the memory (R31, R34). -/
theorem read?_of_addr (m : Memory) (addr : BitVec 15) : m.read? addr.toNat = some (m.readWord addr.toNat) :=
  if_pos addr.isLt

/-- Settles O48, by whether a run is in progress. -/
theorem inspectionShowsTheState : Obligations.InspectionShowsTheState := by
  intro s
  refine ⟨fun hs q => inspect_of_steps hs q, fun hs => ?_⟩
  have shown : s.inspectable = true := by simp [inspectable_eq_not_steps, hs]
  simp [State.inspect, shown, read?_of_addr]

end Sys2Proof.Machine
end

section
/-! PROOFS. The memory (R34 to R38, R44, R46): which step writes it and where, what is read and fetched after a write, what
a canonical memory is determined by, and the words of a program image. -/

namespace Sys2Proof.Machine

/-! ### Which step writes memory (R35) -/

/-- The commit of a WMEM of `v` to the address `addr` (R97). -/
def State.afterWmem (s : State) (a b addr v : Word) : State :=
  s.commitNext (.wmem a b) { s with mem := s.mem.writeWord addr.toNat v }

@[simp] theorem State.afterWmem_mem (s : State) (a b addr v : Word) :
    (s.afterWmem a b addr v).mem = s.mem.writeWord addr.toNat v := rfl

/-- Every instruction but WMEM leaves the memory as it is. -/
theorem exec_mem_of_not_wmem {i : Instr} {s t : State} (h : exec i s = .next t) (hi : ∀ a b, i ≠ .wmem a b) :
    t.mem = s.mem := by
  cases exec_ends h with
  | raised => rfl
  | held => rfl
  | committed n u record params commands canonical mem =>
    exact mem.resolve_right fun ⟨a, b, e⟩ => hi a b e

/-- A WMEM inside the memory writes its word and goes on (R97). -/
theorem exec_wmem_inside {s : State} {a b A B : Word} (ha : s.value? a = some A) (hb : s.value? b = some B)
    (hA : A.toNat < 32768) : exec (.wmem a b) s = .next (s.afterWmem a b A B) := by
  simp only [exec, execWmem, withValue, ha, hb, withOperand_some, withMemWrite_inside s A B _ hA, State.afterWmem]

/-- A WMEM leaves the memory as it is, or writes one word at its resolved address (R97). -/
theorem exec_wmem_mem {s t : State} {a b : Word} (h : exec (.wmem a b) s = .next t) :
    t.mem = s.mem ∨ ∃ A B, s.value? a = some A ∧ t.mem = s.mem.writeWord A.toNat B := by
  cases h
  rcases withOperand_cases s a (s.value? a) _ with ⟨A, ha, e⟩ | ⟨-, e⟩ <;> rw [withValue, e]
  · rcases withOperand_cases s b (s.value? b) _ with ⟨B, -, e⟩ | ⟨-, e⟩ <;> rw [withValue, e]
    · rcases withMemWrite_cases s A B _ with ⟨-, e⟩ | ⟨-, e⟩ <;> rw [e]
      · exact .inr ⟨A, B, ha, rfl⟩
      · exact .inl rfl
    · exact .inl rfl
  · exact .inl rfl

/-- Every instruction leaves the memory as it is, or writes one word at the address it stores to (R35). -/
theorem exec_mem_cases {i : Instr} {s t : State} (h : exec i s = .next t) :
    t.mem = s.mem ∨ ∃ k w, i.storeAddr? s = some k ∧ t.mem = s.mem.writeWord k w := by
  by_cases hi : ∃ a b, i = .wmem a b
  · obtain ⟨a, b, rfl⟩ := hi
    refine (exec_wmem_mem h).imp_right ?_
    rintro ⟨A, B, ha, hm⟩
    exact ⟨A.toNat, B, by simp [Instr.storeAddr?, ha], hm⟩
  · exact .inl (exec_mem_of_not_wmem h fun a b e => hi ⟨a, b, e⟩)

theorem sameMemory_of_mem_eq {s t : State} (h : t.mem = s.mem) : SameMemory s t := fun n => by rw [h]

theorem sameMemoryBut_of_mem_eq_writeWord {s t : State} {k : Nat} {w : Word} (h : t.mem = s.mem.writeWord k w) :
    SameMemoryBut k s t := fun n h1 h2 => by simp [h, Memory.readByte_writeWord, h1, h2]

/-- Settles O30: a step that writes memory writes the word at the address it stores to. -/
theorem onlyWmemWritesMemory : Obligations.OnlyWmemWritesMemory := by
  intro i s t h
  obtain hm | ⟨k, w, hk, hm⟩ := exec_mem_cases h
  · exact ⟨fun _ => sameMemory_of_mem_eq hm, fun _ _ n _ _ => sameMemory_of_mem_eq hm n⟩
  · refine ⟨fun hn => absurd (hk.symm.trans hn) nofun, fun k' hk' => ?_⟩
    obtain rfl := Option.some.inj (hk.symm.trans hk')
    exact sameMemoryBut_of_mem_eq_writeWord hm

/-! ### What is read and fetched after a write (R44, R46) -/

/-- The commit of an RMEM of the word at the address `addr` to the register `d` (R96). -/
def State.afterRmem (s : State) (a b : Word) (d : Fin 8) (addr : Word) : State :=
  s.commitNext (.rmem a b) (s.setReg d (s.mem.readWord addr.toNat))

/-- After an RMEM its destination holds the memory word (R96). -/
@[simp] theorem State.afterRmem_reg (s : State) (a b : Word) (d : Fin 8) (addr : Word) :
    (s.afterRmem a b d addr).reg d = s.mem.readWord addr.toNat := by simp [State.afterRmem, State.commitNext]

/-- An RMEM inside the memory reads its word and goes on (R96). -/
theorem exec_rmem_inside {s : State} {a b B : Word} {d : Fin 8} (ha : destIndex? a = some d) (hb : s.value? b = some B)
    (hB : B.toNat < 32768) : exec (.rmem a b) s = .next (s.afterRmem a b d B) := by
  simp only [exec, execRmem, withDest, withValue, ha, hb, withOperand_some, withMemRead_inside s B _ hB, State.afterRmem]

/-- Settles O55: RMEM and the fetch read the word that stands in memory, and that is the word WMEM wrote. -/
theorem writtenWordIsReadAndFetched : Obligations.WrittenWordIsReadAndFetched := by
  intro a b A B c e d s t u ha hb hA ht hu hc he
  obtain rfl : s.afterWmem a b A B = t := by simpa [exec_wmem_inside ha hb hA] using ht
  have hB : u.mem.readWord A.toNat = B := by simp [hu, Memory.readWord_writeWord]
  obtain ⟨ws, hw⟩ := fetchWindow_cons u.mem hA
  exact ⟨⟨_, exec_rmem_inside hc he hA, by simp [hB]⟩, by simp [hw, hB]⟩

/-! ### What a canonical memory is determined by (R34, assumption 1) -/

/-- Without its first cell a canonical memory is still canonical. -/
theorem Memory.wf_of_cons {c : Host.Cell} {m : Memory} (h : Memory.wf (c :: m)) : m.wf :=
  ⟨h.1.of_cons, fun d hd => h.2 d (List.mem_cons_of_mem c hd)⟩

/-- The cells of a canonical memory are the bytes that do not read as 0. -/
theorem Memory.mem_iff_readByte {m : Memory} (h : m.wf) (n : Nat) (v : Byte) :
    (n, v) ∈ m ↔ v ≠ 0 ∧ m.readByte n = v := by
  induction m with
  | nil => simpa [Memory.readByte] using Ne.symm
  | cons c rest ih =>
    obtain ⟨k, u⟩ := c
    have hu : u ≠ 0 := (h.2 (k, u) List.mem_cons_self).1
    have below : ∀ d ∈ rest, k < d.1 := (List.pairwise_cons.1 h.1).1
    by_cases hk : k = n
    · subst hk
      have notLater : (k, v) ∉ rest := fun hv => Nat.lt_irrefl k (below _ hv)
      simp only [Memory.readByte, List.mem_cons, notLater, or_false, Prod.mk.injEq, true_and, if_true]
      exact ⟨fun e => ⟨e ▸ hu, e.symm⟩, fun e => e.2.symm⟩
    · simp [Memory.readByte, hk, Ne.symm hk, ih (Memory.wf_of_cons h)]

/-- A canonical memory has no byte past the last of its words. -/
theorem Memory.readByte_outside {m : Memory} (h : m.wf) {n : Nat} (hn : 65536 ≤ n) : m.readByte n = 0 :=
  Memory.readByte_eq_zero fun c hc e => by
    have := (h.2 c hc).2
    simp only [Config.memWords] at this
    omega

/-- Canonical memories with the same bytes are the same list. -/
theorem Memory.ext_readByte {m m' : Memory} (h : m.wf) (h' : m'.wf) (hb : ∀ n, m.readByte n = m'.readByte n) :
    m = m' := by
  refine h.1.eq_of_mem_iff h'.1 fun ⟨n, v⟩ => ?_
  rw [Memory.mem_iff_readByte h, Memory.mem_iff_readByte h', hb n]

/-- The two bytes of a word of memory (R38). -/
@[simp] theorem Memory.lowByte_readWord (m : Memory) (k : Nat) : (m.readWord k).lowByte = m.readByte (2 * k) :=
  Word.lowByte_ofBytes _ _

@[simp] theorem Memory.highByte_readWord (m : Memory) (k : Nat) : (m.readWord k).highByte = m.readByte (2 * k + 1) :=
  Word.highByte_ofBytes _ _

/-- Memories with the same words have the same bytes, as far as the words go. -/
theorem Memory.readByte_congr_of_read? {m m' : Memory} (h : ∀ k, k < 32768 → m.read? k = m'.read? k) {n : Nat}
    (hn : n < 65536) : m.readByte n = m'.readByte n := by
  have hk : n / 2 < 32768 := by omega
  have hw : m.readWord (n / 2) = m'.readWord (n / 2) := by simpa [Memory.read?, hk] using h _ hk
  obtain hp | hp : n = 2 * (n / 2) ∨ n = 2 * (n / 2) + 1 := by omega
  · rw [hp, ← Memory.lowByte_readWord, hw, Memory.lowByte_readWord]
  · rw [hp, ← Memory.highByte_readWord, hw, Memory.highByte_readWord]

/-- Settles O56: the words determine the bytes, and the bytes a canonical list. -/
theorem canonicalMemoriesThatReadAlikeAreEqual : Obligations.CanonicalMemoriesThatReadAlikeAreEqual := by
  intro m m' hm hm' h
  refine Memory.ext_readByte hm hm' fun n => ?_
  rcases Nat.lt_or_ge n 65536 with hn | hn
  · exact Memory.readByte_congr_of_read? h hn
  · rw [Memory.readByte_outside hm hn, Memory.readByte_outside hm' hn]

/-! ### Program images (R38, R119) -/

/-- The bytes of a list of words, low byte first: the program image of R38. -/
def imageBytes (ws : List Word) : List Byte := ws.flatMap fun w => [w.lowByte, w.highByte]

@[simp] theorem imageBytes_nil : imageBytes [] = [] := rfl

@[simp] theorem imageBytes_cons (w : Word) (ws : List Word) :
    imageBytes (w :: ws) = w.lowByte :: w.highByte :: imageBytes ws := rfl

theorem imageBytes_length (ws : List Word) : (imageBytes ws).length = 2 * ws.length := by
  induction ws with
  | nil => rfl
  | cons w ws ih => simp only [imageBytes_cons, List.length_cons, ih]; omega

/-- Word `k` stands at the bytes `2k` (low) and `2k + 1` (high) of an image. -/
theorem imageBytes_getElem? {ws : List Word} {k : Nat} {w : Word} (h : ws[k]? = some w) :
    (imageBytes ws)[2 * k]? = some w.lowByte ∧ (imageBytes ws)[2 * k + 1]? = some w.highByte := by
  induction ws generalizing k with
  | nil => cases h
  | cons v ws ih =>
    cases k with
    | zero => cases h; exact ⟨rfl, rfl⟩
    | succ k => exact ih (k := k) h

theorem Word.toNat_eq_bytes (w : Word) : w.toNat = w.lowByte.toNat + 256 * w.highByte.toNat := by
  rw [← Word.toNat_ofBytes, Word.ofBytes_bytes]

theorem imageWords_imageBytes (ws : List Word) : imageWords (imageBytes ws) = some ws := by
  induction ws with
  | nil => rfl
  | cons w ws ih => simp [imageWords, ih]

/-- An image with words is the bytes of these words. -/
theorem eq_imageBytes_of_imageWords {bytes : List Byte} {ws : List Word} (h : imageWords bytes = some ws) :
    bytes = imageBytes ws := by
  induction bytes using imageWords.induct generalizing ws with
  | case1 => cases h; rfl
  | case2 b => cases h
  | case3 lo hi rest ih =>
    obtain ⟨vs, hv, rfl⟩ := Option.map_eq_some_iff.1 h
    simp [← ih hv]

/-- An image is refused exactly when its number of bytes is odd (R119). -/
theorem imageWords_eq_none_iff (bytes : List Byte) : imageWords bytes = none ↔ bytes.length % 2 = 1 := by
  induction bytes using imageWords.induct with
  | case1 => simp [imageWords]
  | case2 b => simp [imageWords]
  | case3 lo hi rest ih => simp [imageWords, ih, Nat.add_assoc]

/-- Settles O45: an image that is not refused is the bytes of its words. -/
theorem imageIsLittleEndianWords : Obligations.ImageIsLittleEndianWords := by
  refine ⟨imageWords_imageBytes, fun bytes => (imageWords_eq_none_iff bytes).2, fun bytes h => ?_,
    fun bytes ws h k w hk => ?_⟩
  · obtain ⟨ws, hw⟩ := Option.ne_none_iff_exists'.1 (mt (imageWords_eq_none_iff bytes).1 (by omega))
    exact ⟨ws, hw, by rw [eq_imageBytes_of_imageWords hw, imageBytes_length]⟩
  · obtain rfl := eq_imageBytes_of_imageWords h
    obtain ⟨hlo, hhi⟩ := imageBytes_getElem? hk
    exact ⟨_, _, hlo, hhi, Word.toNat_eq_bytes w⟩

end Sys2Proof.Machine
end

section
/-! PROOFS. The decoder and the encoder (R48, R50, R52, R57, R61): the instruction read for an opcode is the one whose
operand words come first, and where there is none, the words are too few. -/

namespace Sys2Proof

/-! ### Opcodes and operand words of an instruction -/

/-- The opcode of an instruction is a row of R52. -/
theorem operandKinds_opcode (i : Instr) : operandKinds i.opcode = some i.kinds := by cases i <;> rfl

/-- An instruction has one operand word for each operand kind of its opcode (R48, R52). -/
theorem operands_length (i : Instr) : i.operands.length = i.kinds.length := by cases i <;> rfl

theorem opcode_lt (i : Instr) : i.opcode < 22 := by
  by_contra h
  have unknown := Machine.operandKinds_eq_none.2 (Nat.not_lt.1 h)
  cases (operandKinds_opcode i).symm.trans unknown

/-- An opcode word is the opcode it holds. -/
theorem toNat_eq_opcode_iff (op : Word) (i : Instr) : op.toNat = i.opcode ↔ op = BitVec.ofNat 16 i.opcode := by
  have := opcode_lt i
  rw [← BitVec.toNat_inj, BitVec.toNat_ofNat, Nat.mod_eq_of_lt (by omega)]

/-! ### Reading an instruction -/

/-- What is read for an opcode is the instruction of that opcode whose operand words come first (R48, R52). -/
theorem readInstr_eq_some_iff {n : Nat} {ws : List Word} {i : Instr} :
    readInstr n ws = some i ↔ n = i.opcode ∧ ∃ rest, ws = i.operands ++ rest := by
  constructor
  · intro h
    refine ⟨(Machine.readInstr_opcode h).symm, ?_⟩
    unfold readInstr at h
    split at h <;> cases h <;> exact ⟨_, rfl⟩
  · rintro ⟨rfl, rest, rfl⟩
    cases i <;> rfl

/-- Nothing is read for a known opcode exactly when fewer words follow than it takes (R50, R57). -/
theorem readInstr_eq_none_iff {n : Nat} {kinds : List Kind} {ws : List Word} (h : operandKinds n = some kinds) :
    readInstr n ws = none ↔ ws.length < kinds.length := by
  constructor
  · intro hn
    by_contra hl
    simpa [hn] using Machine.readInstr_isSome h (Nat.not_lt.1 hl)
  · intro hl
    by_contra hn
    obtain ⟨i, hi⟩ := Option.ne_none_iff_exists'.1 hn
    obtain ⟨rfl, rest, rfl⟩ := readInstr_eq_some_iff.1 hi
    obtain rfl : i.kinds = kinds := by simpa [operandKinds_opcode] using h
    simp [operands_length] at hl

/-! ### Decoding -/

theorem decode_cons_of_unknown {op : Word} (ws : List Word) (h : 22 ≤ op.toNat) :
    decode (op :: ws) = .error (.illegalOpcode op) := by simp [decode, Machine.operandKinds_eq_none.2 h]

/-- With a known opcode, what is decoded is what is read for it, and nothing read means the words are too few (R57). -/
theorem decode_cons_of_known {op : Word} {kinds : List Kind} (ws : List Word) (h : operandKinds op.toNat = some kinds) :
    decode (op :: ws) = (readInstr op.toNat ws).elim (.error (.truncated kinds ws)) .ok := by
  cases hr : readInstr op.toNat ws <;> simp [decode, h, hr]

theorem decode_cons_of_short {op : Word} {kinds : List Kind} {ws : List Word} (h : operandKinds op.toNat = some kinds)
    (hl : ws.length < kinds.length) : decode (op :: ws) = .error (.truncated kinds ws) := by
  simp [decode_cons_of_known ws h, (readInstr_eq_none_iff h).2 hl]

theorem decode_cons_eq_ok_iff {op : Word} {ws : List Word} {i : Instr} :
    decode (op :: ws) = .ok i ↔ readInstr op.toNat ws = some i := by
  cases hk : operandKinds op.toNat with
  | none =>
    have unknown := Machine.operandKinds_eq_none.1 hk
    rw [decode_cons_of_unknown ws unknown, readInstr_eq_some_iff]
    exact ⟨nofun, fun ⟨he, _⟩ => absurd (opcode_lt i) (by omega)⟩
  | some kinds => cases hr : readInstr op.toNat ws <;> simp [decode_cons_of_known ws hk, hr]

/-- Settles O2: the opcode word selects the row, and the operand words are the ones that follow. -/
theorem decodeIffBeginsWithEncoding : Obligations.DecodeIffBeginsWithEncoding := by
  intro ws i
  cases ws with
  | nil => exact ⟨nofun, fun ⟨_, h⟩ => nomatch h⟩
  | cons op ws =>
    rw [decode_cons_eq_ok_iff, readInstr_eq_some_iff, toNat_eq_opcode_iff]
    simp [encode]

theorem decode_encode (i : Instr) : decode (encode i) = .ok i :=
  (decodeIffBeginsWithEncoding _ i).2 ⟨[], (List.append_nil _).symm⟩

/-- Settles O3, by whether the opcode is known and whether enough words follow it. -/
theorem decoderRejectsByName : Obligations.DecoderRejectsByName := by
  refine ⟨fun ws => ⟨fun h => ?_, fun h => h ▸ rfl⟩, fun op ws => ⟨fun h => ?_, decode_cons_of_unknown ws⟩,
    fun op ws kinds hk => ⟨fun h => ?_, decode_cons_of_short hk⟩⟩
  · obtain ⟨hw, -⟩ | ⟨_, hr, -⟩ | ⟨_, _, _, -, -, hr⟩ := Machine.decode_error_cases h
    · exact hw
    · cases hr
    · cases hr
  · obtain ⟨-, hr⟩ | ⟨_, hr, hop⟩ | ⟨_, _, _, -, -, hr⟩ := Machine.decode_error_cases h
    · cases hr
    · cases hr; exact hop
    · cases hr
  · rw [← readInstr_eq_none_iff hk]
    cases hr : readInstr op.toNat ws with
    | none => rfl
    | some i => simp [decode_cons_of_known ws hk, hr] at h

/-- Settles O1: each word sequence is the encoding of its instruction. -/
theorem opcodeMapWordsDecode : Obligations.OpcodeMapWordsDecode :=
  ⟨decode_encode .halt, decode_encode (.set 32768 123), decode_encode (.push 7), decode_encode (.eq 32769 3 3),
    decode_encode (.jmp 100), decode_encode (.add 32768 32769 4), decode_encode (.rmem 32771 100),
    decode_encode (.call 100), decode_encode (.out 32768), decode_encode .noop⟩

/-! ### Instructions written as numbers (R48, assumption 8) -/

/-- The bits of one word of an instruction written as a number. -/
theorem getLsbD_tableWord (nbits w k j : Nat) (hj : j < 16) :
    (tableWord nbits w k).getLsbD j = (decide (16 * k + j < nbits) && w.testBit (16 * k + j)) := by
  rw [tableWord, BitVec.getLsbD_ofNat, Nat.testBit_shiftRight, Nat.testBit_mod_two_pow]
  simp [hj]

theorem decodeTableWord_eq_some_iff {nbits w : Nat} {i : Instr} :
    decodeTableWord nbits w = some i ↔ decode (tableWords nbits w) = .ok i := by
  unfold decodeTableWord
  cases decode (tableWords nbits w) <;> simp

/-- Settles O57: the bits by shift and remainder, the instruction by the decoder. -/
theorem tableWordsAreTheirBits : Obligations.TableWordsAreTheirBits := by
  refine ⟨getLsbD_tableWord, fun nbits w k => ?_, fun nbits w i =>
    decodeTableWord_eq_some_iff.trans (decodeIffBeginsWithEncoding _ i)⟩
  split
  · interval_cases k <;> rfl
  · exact List.getElem?_eq_none (by simpa [tableWords] using ‹¬ k < 4›)

end Sys2Proof
end

section
/-! PROOFS. Operand words (R53 to R56), and the faults of fetch (R49, R57, R110). -/

namespace Sys2Proof.Machine

/-- Settles O5, by the class of the word. -/
theorem operandWordsDecodeByClass : Obligations.OperandWordsDecodeByClass := fun s _ =>
  ⟨fun h => ⟨value?_literal s h, destIndex?_eq_none.2 (.inl h)⟩,
    fun _ h => ⟨value?_register s h, destIndex?_register h⟩,
    fun h => ⟨(value?_eq_none s).2 h, destIndex?_eq_none.2 (.inr h)⟩⟩

/-- Settles O6, by the value of the parameter. -/
theorem transferOperandsFollowTheParameter : Obligations.TransferOperandsFollowTheParameter :=
  ⟨fun _ _ => ⟨fun h => by simp [State.transfer?, h], fun h => by simp [State.transfer?, h]⟩, rfl⟩

/-! ### Faults of fetch -/

theorem faultTaken_raise (s : State) (kind : FaultKind) (value : Word) : FaultTaken kind value s (s.raise kind value) :=
  ⟨rfl, rfl, rfl, rfl, rfl, rfl, rfl, rfl, rfl, rfl, rfl, rfl, rfl⟩

/-- Where fetch has no instruction, the step takes its fault and asks the host nothing (R57, R65). -/
theorem step_of_fetch_error {s : State} (h : s.engineTurn) {fault : FaultKind × Word}
    (hf : fetch s = .error fault) :
    ∃ t, step s = .next t ∧ FaultTaken fault.1 fault.2 s.dropCommand t ∧ NoInput s t ∧ NoOutput s t :=
  ⟨s.dropCommand.raise fault.1 fault.2, by rw [step_engineTurn h, hf], faultTaken_raise _ _ _, ⟨rfl, rfl⟩, ⟨rfl, rfl, rfl⟩⟩

theorem fetch_of_decode_error {s : State} {r : Reject} (h : decode (fetchWindow s.mem s.pc.toNat) = .error r) :
    fetch s = .error (rejectFault s r) := by simp [fetch, h]

theorem read?_eq_some_iff {m : Memory} {addr : Nat} {w : Word} :
    m.read? addr = some w ↔ addr < 32768 ∧ m.readWord addr = w := by simp [Memory.read?]

/-- Settles O37: the opcode is fetched and looked up before anything else. -/
theorem unknownOpcodeFaults : Obligations.UnknownOpcodeFaults := by
  intro s op turn hread hop
  obtain ⟨hpc, rfl⟩ := read?_eq_some_iff.1 hread
  obtain ⟨ws, hw⟩ := fetchWindow_cons s.mem hpc
  exact step_of_fetch_error turn (fetch_of_decode_error (by rw [hw, decode_cons_of_unknown ws hop]))

/-- The memory words after the word address `pc`, up to the end of the memory. -/
def wordsAfter (m : Memory) (pc : Nat) : List Word := (List.range (32767 - pc)).map fun k => m.readWord (pc + 1 + k)

theorem wordsAfter_length (m : Memory) (pc : Nat) : (wordsAfter m pc).length = 32767 - pc := by simp [wordsAfter]

/-- With fewer than three words after the pc, all of them are fetched (R57). -/
theorem fetchWindow_near_end (m : Memory) {pc : Nat} (h : pc < 32768) (near : 32767 - pc < 3) :
    fetchWindow m pc = m.readWord pc :: wordsAfter m pc := by
  obtain rfl | rfl | rfl : pc = 32765 ∨ pc = 32766 ∨ pc = 32767 := by omega
  all_goals rfl

/-- An instruction that runs past the memory raises the fault that R110 puts first: of an operand word that is there, or
of the first missing address. -/
theorem fetch_past_the_memory {s : State} {op : Word} {kinds : List Kind} (hread : s.mem.read? s.pc.toNat = some op)
    (hk : operandKinds op.toNat = some kinds) (past : 32768 ≤ s.pc.toNat + kinds.length) :
    fetch s = .error (truncatedFault s.params.resolveTransferOperands s.pc kinds (wordsAfter s.mem s.pc.toNat)) := by
  obtain ⟨hpc, rfl⟩ := read?_eq_some_iff.1 hread
  have short : (wordsAfter s.mem s.pc.toNat).length < kinds.length := by rw [wordsAfter_length]; omega
  have near : 32767 - s.pc.toNat < 3 := by
    have := operandKinds_length_le hk
    omega
  exact fetch_of_decode_error (by rw [fetchWindow_near_end s.mem hpc near, decode_cons_of_short hk short])

/-- The first address after the words that are there is the first that does not exist (R57). -/
theorem pc_add_wordsAfter {pc : Word} (m : Memory) (h : pc.toNat < 32768) :
    pc + BitVec.ofNat 16 (1 + (wordsAfter m pc.toNat).length) = 32768 := by
  have : (32768 : Word).toNat = 32768 := rfl
  rw [wordsAfter_length]
  apply BitVec.eq_of_toNat_eq
  simp only [BitVec.toNat_add, BitVec.toNat_ofNat]
  omega

/-- Settles O38, by whether an operand word before the end is rejected. -/
theorem operandPastTheMemoryFaults : Obligations.OperandPastTheMemoryFaults := by
  intro s op kinds turn hread hk past present
  obtain ⟨t, ht, fault, input, output⟩ := step_of_fetch_error turn (fetch_past_the_memory hread hk past)
  refine ⟨t, ht, input, output, ?_⟩
  -- The words that are there, under their name.
  have there : present = wordsAfter s.mem s.pc.toNat := rfl
  clear_value present
  subst there
  unfold truncatedFault at fault
  cases hr : firstRejected? s.params.resolveTransferOperands kinds (wordsAfter s.mem s.pc.toNat) with
  | some raw => simpa only [hr] using fault
  | none => simpa only [hr, pc_add_wordsAfter s.mem (read?_eq_some_iff.1 hread).1] using fault

end Sys2Proof.Machine
end

section
/-! PROOFS. The assembler reads the text of an instruction back (R62): digits give their number, an operand's text its
word, the texts between separators the operands, and the mnemonic the opcode. -/

namespace Sys2Proof.Machine

/-! ### Digits -/

theorem digitValue?_digitText : ∀ base ≤ 16, ∀ d < base, digitValue? base (digitText d) = some d := by decide

theorem isDigit_digitText : ∀ d < 10, (digitText d).isDigit = true := by decide

theorem digitsValue?_append (base acc : Nat) (cs ds : List Char) :
    digitsValue? base acc (cs ++ ds) = (digitsValue? base acc cs).bind (digitsValue? base · ds) := by
  induction cs generalizing acc with
  | nil => rfl
  | cons c cs ih => cases h : digitValue? base c <;> simp [digitsValue?, h, ih]

/-- The digits of a number that has no more places than are shown spell that number. -/
theorem digitsValue?_paddedDigits {base : Nat} (h0 : 0 < base) (hb : base ≤ 16) {places n : Nat} (hn : n < base ^ places) :
    digitsValue? base 0 (paddedDigits base places n) = some n := by
  induction places generalizing n with
  | zero => simp_all [paddedDigits, digitsValue?]
  | succ places ih =>
    have hd : n / base < base ^ places := Nat.div_lt_of_lt_mul (by rwa [Nat.pow_succ'] at hn)
    simp [paddedDigits, digitsValue?_append, ih hd, digitsValue?, digitValue?_digitText base hb _ (Nat.mod_lt n h0),
      Nat.div_add_mod']

theorem isDigit_of_mem_paddedDigits {places n : Nat} {c : Char} (h : c ∈ paddedDigits 10 places n) :
    c.isDigit = true := by
  induction places generalizing n with
  | zero => cases h
  | succ places ih =>
    obtain h | h := List.mem_append.1 h
    · exact ih h
    · rw [List.mem_singleton.1 h]
      exact isDigit_digitText _ (Nat.mod_lt n (by decide))

/-- Leading zeros add nothing to a number. -/
theorem digitsValue?_dropWhile (ds : List Char) :
    digitsValue? 10 0 (ds.dropWhile (· == '0')) = digitsValue? 10 0 ds := by
  induction ds with
  | nil => rfl
  | cons d ds ih =>
    by_cases h : d = '0'
    · subst h
      simpa [digitsValue?, digitValue?] using ih
    · simp [h]

/-! ### Numbers -/

/-- A numeral: decimal digits, at least one. -/
structure IsNumeral (t : List Char) : Prop where
  ne_nil : t ≠ []
  digits : ∀ c ∈ t, c.isDigit = true

theorem IsNumeral.not_mem {t : List Char} (h : IsNumeral t) {c : Char} (hc : c.isDigit = false) : c ∉ t := fun hm => by
  simp [h.digits c hm] at hc

theorem isNumeral_decimalText (n : Nat) : IsNumeral (decimalText n) := by
  unfold decimalText
  split
  · exact ⟨nofun, by simp⟩
  · rename_i h
    exact ⟨h, fun c hc => isDigit_of_mem_paddedDigits ((List.dropWhile_sublist _).mem hc)⟩

theorem digitsValue?_decimalText {n : Nat} (h : n < 100000) : digitsValue? 10 0 (decimalText n) = some n := by
  have hv : digitsValue? 10 0 ((paddedDigits 10 5 n).dropWhile (· == '0')) = some n := by
    rw [digitsValue?_dropWhile, digitsValue?_paddedDigits (by decide) (by decide) h]
  unfold decimalText
  split
  · rename_i hz
    rw [hz] at hv
    exact hv
  · exact hv

/-- A numeral is read in base 10. -/
theorem parseNumber_of_isNumeral {t : List Char} (ht : IsNumeral t) {n : Nat} (hv : digitsValue? 10 0 t = some n)
    (hn : n < 32768) : parseNumber t = some (BitVec.ofNat 16 n) := by
  have noHex := ht.not_mem (c := 'x') rfl
  unfold parseNumber
  split
  · exact absurd rfl ht.ne_nil
  · split
    · simp at noHex
    · simp [hv, hn]

theorem parseNumber_decimalText {w : Word} (h : w.toNat < 32768) : parseNumber (decimalText w.toNat) = some w := by
  rw [parseNumber_of_isNumeral (isNumeral_decimalText _) (digitsValue?_decimalText (by omega)) h, BitVec.ofNat_toNat,
    BitVec.setWidth_eq]

/-! ### Operands -/

theorem parseRegister_eq_none {t : List Char} (h : t.head? ≠ some 'r') : parseRegister t = none := by
  unfold parseRegister
  split
  · simp at h
  · rfl

/-- A numeral stands for its number in every operand position (assumption 11). -/
theorem parseOperand_of_isNumeral (kind : Kind) {t : List Char} (h : IsNumeral t) :
    parseOperand kind t = parseNumber t := by
  have noReg : parseRegister t = none := parseRegister_eq_none fun hr => h.not_mem (c := 'r') rfl (List.mem_of_head? hr)
  unfold parseOperand
  simp only [noReg]
  split
  · rfl
  · rfl
  · exact absurd List.mem_cons_self (h.not_mem rfl)
  · rfl
  · rename_i q c q'
    have noQuote : q.toNat ≠ 39 := by
      have := (Char.isDigit_iff_toNat.1 (h.digits q List.mem_cons_self)).1
      simp at this
      omega
    simp [noQuote]
  · rfl

/-- A register's text is its reference word (R62). -/
theorem parseOperand_register (kind : Kind) {d : Nat} (h : d < 8) :
    parseOperand kind ['r', 'e', 'g', digitText d] = some (BitVec.ofNat 16 (32768 + d)) := by
  simp [parseOperand, parseRegister, digitValue?_digitText 8 (by decide) d h]

/-- A quoted character is its code (R62). -/
theorem parseOperand_quoted {n : Nat} (h : isQuoted n = true) :
    parseOperand .char [Char.ofNat 39, Char.ofNat n, Char.ofNat 39] = some (BitVec.ofNat 16 n) := by
  simp only [isQuoted, Bool.and_eq_true, decide_eq_true_eq] at h
  obtain ⟨⟨⟨lo, hi⟩, -⟩, -⟩ := h
  have code : (Char.ofNat n).toNat = n := by rw [Char.toNat_ofNat, if_pos (.inl (by omega))]
  simp [parseOperand, parseRegister, code, lo, hi]

/-- What the text of an operand word that is no illegal word can be (R62). -/
theorem operandText_cases (kind : Kind) {w : Word} (h : w.toNat < 32776) :
    (w.toNat < 32768 ∧ operandText kind w = decimalText w.toNat) ∨
      (w.toNat < 32768 ∧ kind = .address ∧ operandText kind w = '@' :: decimalText w.toNat) ∨
      (kind = .char ∧ isQuoted w.toNat = true ∧ operandText kind w = [Char.ofNat 39, Char.ofNat w.toNat, Char.ofNat 39]) ∨
      ∃ d < 8, w.toNat = 32768 + d ∧ operandText kind w = ['r', 'e', 'g', digitText d] := by
  by_cases hw : w.toNat < 32768
  · cases kind with
    | value | dest => exact .inl ⟨hw, if_pos hw⟩
    | address => exact .inr (.inl ⟨hw, rfl, if_pos hw⟩)
    | char =>
      cases hq : isQuoted w.toNat with
      | true => exact .inr (.inr (.inl ⟨rfl, rfl, by simp [operandText, hw, hq]⟩))
      | false => exact .inl ⟨hw, by simp [operandText, hw, hq]⟩
  · exact .inr (.inr (.inr ⟨w.toNat - 32768, by omega, by omega, by simp [operandText, hw, h]⟩))

/-- The text of an operand word is read back as the word, in every operand position. -/
theorem parseOperand_operandText (kind : Kind) {w : Word} (h : w.toNat < 32776) :
    parseOperand kind (operandText kind w) = some w := by
  have word : BitVec.ofNat 16 w.toNat = w := by simp
  obtain ⟨hw, e⟩ | ⟨hw, rfl, e⟩ | ⟨rfl, hq, e⟩ | ⟨d, hd, hw, e⟩ := operandText_cases kind h
  · rw [e, parseOperand_of_isNumeral kind (isNumeral_decimalText _), parseNumber_decimalText hw]
  · rw [e]
    exact parseNumber_decimalText hw
  · rw [e, parseOperand_quoted hq, word]
  · rw [e, parseOperand_register kind hd, ← hw, word]

/-! ### The texts between the separators -/

/-- A text with no separator in it is one text. -/
def IsOneText (t : List Char) : Prop := splitOperands t = [t]

theorem splitOperands_ne_nil (t : List Char) : splitOperands t ≠ [] := by
  unfold splitOperands
  split
  · nofun
  · nofun
  · split <;> nofun

/-- A character that begins no separator belongs to the first text. -/
theorem splitOperands_cons {c : Char} {t : List Char} (h : c = ',' → t.head? ≠ some ' ') :
    splitOperands (c :: t) = (splitOperands t).modifyHead (c :: ·) := by
  rw [splitOperands.eq_3]
  · cases hs : splitOperands t with
    | nil => exact absurd hs (splitOperands_ne_nil t)
    | cons u us => rfl
  · rintro rest rfl rfl
    exact h rfl rfl

theorem IsOneText.cons_iff {c : Char} {t : List Char} :
    IsOneText (c :: t) ↔ (c = ',' → t.head? ≠ some ' ') ∧ IsOneText t := by
  constructor
  · intro h
    have hc : c = ',' → t.head? ≠ some ' ' := by
      rintro rfl hs
      obtain ⟨rest, rfl⟩ := List.head?_eq_some_iff.1 hs
      simp [IsOneText, splitOperands] at h
    refine ⟨hc, ?_⟩
    rw [IsOneText, splitOperands_cons hc] at h
    cases hs : splitOperands t with
    | nil => exact absurd hs (splitOperands_ne_nil t)
    | cons u us => simpa [hs, IsOneText] using h
  · rintro ⟨hc, ht⟩
    rw [IsOneText, splitOperands_cons hc, ht]
    rfl

theorem IsOneText.of_not_mem {t : List Char} (h : ',' ∉ t) : IsOneText t := by
  induction t with
  | nil => rfl
  | cons c t ih =>
    rw [List.mem_cons, not_or] at h
    exact cons_iff.2 ⟨fun e => absurd e.symm h.1, ih h.2⟩

/-- Up to a separator the text is the first of the texts. -/
theorem IsOneText.splitOperands_append {t : List Char} (h : IsOneText t) (rest : List Char) :
    splitOperands (t ++ [',', ' '] ++ rest) = t :: splitOperands rest := by
  induction t with
  | nil => rfl
  | cons c t ih =>
    obtain ⟨hc, ht⟩ := cons_iff.1 h
    have noSep : c = ',' → (t ++ [',', ' '] ++ rest).head? ≠ some ' ' := fun e => by
      cases t with
      | nil => simp
      | cons d t => exact hc e
    rw [List.cons_append, List.cons_append, splitOperands_cons noSep, ih ht]
    rfl

theorem splitOperands_joinText {ts : List (List Char)} (hne : ts ≠ []) (h : ∀ t ∈ ts, IsOneText t) :
    splitOperands (joinText [',', ' '] ts) = ts := by
  induction ts with
  | nil => exact absurd rfl hne
  | cons t ts ih =>
    obtain ⟨ht, hts⟩ := List.forall_mem_cons.1 h
    cases ts with
    | nil => exact ht
    | cons u us => rw [joinText, ht.splitOperands_append, ih nofun hts]

theorem comma_not_mem_decimalText (n : Nat) : ',' ∉ decimalText n := (isNumeral_decimalText n).not_mem rfl

/-- No operand's text has a separator in it: the only comma is the quoted one, and the closing quote follows it. -/
theorem isOneText_operandText (kind : Kind) {w : Word} (h : w.toNat < 32776) : IsOneText (operandText kind w) := by
  obtain ⟨-, e⟩ | ⟨-, -, e⟩ | ⟨-, -, e⟩ | ⟨d, hd, -, e⟩ := operandText_cases kind h <;> rw [e]
  · exact .of_not_mem (comma_not_mem_decimalText _)
  · exact .of_not_mem (by simp [comma_not_mem_decimalText])
  · simp only [IsOneText.cons_iff]
    exact ⟨nofun, fun _ => by simp, nofun, rfl⟩
  · have digit := isDigit_digitText d (by omega)
    exact .of_not_mem fun hm => by simp at hm; simp [← hm] at digit

/-! ### Instructions -/

theorem parseOperands_operandTexts {kinds : List Kind} {ws : List Word} (hl : ws.length = kinds.length)
    (h : ∀ w ∈ ws, w.toNat < 32776) : parseOperands kinds (kinds.zipWith operandText ws) = some ws := by
  induction kinds generalizing ws with
  | nil => rw [List.length_eq_zero_iff.1 hl]; rfl
  | cons kind kinds ih =>
    cases ws with
    | nil => cases hl
    | cons w ws =>
      obtain ⟨hw, hws⟩ := List.forall_mem_cons.1 h
      simp [parseOperands, parseOperand_operandText kind hw, ih (Nat.succ.inj hl) hws]

/-- The texts of an instruction's operands. -/
def operandTexts (i : Instr) : List (List Char) := i.kinds.zipWith operandText i.operands

/-- The operands of an instruction as text, with the space before them. -/
def operandsPart : List (List Char) → List Char
  | [] => []
  | ts => ' ' :: joinText [',', ' '] ts

theorem instrText_eq (i : Instr) : instrText i = mnemonic i.opcode ++ operandsPart (operandTexts i) := by
  rw [instrText, ← Instr.kinds, ← operandTexts]
  cases operandTexts i <;> simp [operandsPart, joinText]

/-- Each mnemonic names one opcode (R52). -/
theorem find?_mnemonic : ∀ op < 22, (List.range 22).find? (fun n => mnemonic n == mnemonic op) = some op := by decide

theorem space_not_mem_mnemonic : ∀ op < 22, ' ' ∉ mnemonic op := by decide

/-- The first space ends the mnemonic. -/
theorem takeWhile_dropWhile_mnemonic {op : Nat} (h : op < 22) (ts : List (List Char)) :
    (mnemonic op ++ operandsPart ts).takeWhile (· != ' ') = mnemonic op ∧
      (mnemonic op ++ operandsPart ts).dropWhile (· != ' ') = operandsPart ts := by
  have noSpace : ∀ c ∈ mnemonic op, (c != ' ') = true := fun c hc => by
    simpa using fun e : c = ' ' => space_not_mem_mnemonic op h (e ▸ hc)
  rw [List.takeWhile_append_of_pos noSpace, List.dropWhile_append_of_pos noSpace]
  cases ts <;> simp [operandsPart]

/-- A mnemonic and texts of operands are assembled to the opcode and the words of these operands. -/
theorem assemble_mnemonic {op : Nat} (h : op < 22) {ts : List (List Char)} (hts : ∀ t ∈ ts, IsOneText t) :
    assemble (mnemonic op ++ operandsPart ts) =
      (parseOperands ((operandKinds op).getD []) ts).map (BitVec.ofNat 16 op :: ·) := by
  obtain ⟨name, rest⟩ := takeWhile_dropWhile_mnemonic h ts
  simp only [assemble, name, rest, find?_mnemonic op h]
  cases ts with
  | nil =>
    simp only [operandsPart]
    cases parseOperands ((operandKinds op).getD []) [] <;> rfl
  | cons t ts =>
    simp only [operandsPart, splitOperands_joinText (List.cons_ne_nil t ts) hts]
    cases parseOperands ((operandKinds op).getD []) (t :: ts) <;> rfl

theorem isOneText_of_mem_operandTexts {i : Instr} (h : ∀ w ∈ i.operands, w.toNat < 32776) :
    ∀ t ∈ operandTexts i, IsOneText t := by
  intro t ht
  rw [operandTexts, ← List.map_uncurry_zip_eq_zipWith] at ht
  obtain ⟨⟨kind, w⟩, hp, rfl⟩ := List.mem_map.1 ht
  exact isOneText_operandText kind (h w (List.of_mem_zip hp).2)

/-- The operand words of a well-formed instruction are literals and register references (R59). -/
theorem wellFormed_operands {i : Instr} (h : i.wellFormed = true) : ∀ w ∈ i.operands, w.toNat < 32776 := by
  cases i <;> simp_all [Instr.wellFormed, Instr.operands, Word.isOperand, Word.isRegister]

/-- Settles O4: the mnemonic gives the opcode, and each operand's text its word. -/
theorem assemblerReadsInstructionText : Obligations.AssemblerReadsInstructionText := by
  intro i hi
  have small := wellFormed_operands hi
  rw [instrText_eq, assemble_mnemonic (opcode_lt i) (isOneText_of_mem_operandTexts small), ← Instr.kinds, operandTexts,
    parseOperands_operandTexts (operands_length i) small]
  rfl

end Sys2Proof.Machine
end

section
/-! PROOFS. The engine's cycle (R64 to R72): the instruction that the words at the pc encode is the one fetched and run,
every step answers a next state, an ended run stays as it is, and a placed instruction is the next to run. -/

namespace Sys2Proof.Machine

/-! ### Fetching the instruction whose words stand at the pc (R57, R65, R66) -/

theorem encode_length (i : Instr) : (encode i).length = i.length := Nat.add_comm _ _

/-- The longest instruction has four words (R48). -/
theorem instr_length_le (i : Instr) : i.length ≤ 4 := by
  have := operandKinds_length_le (operandKinds_opcode i)
  rw [Instr.length, operands_length]
  omega

/-- The words fetched are those that stand in memory from the pc on. -/
theorem fetchWindow_getElem? (m : Memory) (pc : Nat) {k : Nat} (h : k < 4) :
    (fetchWindow m pc)[k]? = m.read? (pc + k) := by
  simp only [fetchWindow, Memory.read?, Config.memWords]
  interval_cases k <;> split_ifs <;> simp <;> omega

/-- The words of `i` stand in the memory from the word address `addr` on. -/
def WordsStandAt (m : Memory) (addr : Nat) (i : Instr) : Prop :=
  ∀ k w, (encode i)[k]? = some w → m.read? (addr + k) = some w

/-- Where the words of an instruction stand, a fetch begins with them. -/
theorem WordsStandAt.fetchWindow {m : Memory} {addr : Nat} {i : Instr} (h : WordsStandAt m addr i) :
    ∃ rest, fetchWindow m addr = encode i ++ rest := by
  have first : (Machine.fetchWindow m addr).take i.length = encode i := by
    refine List.ext_getElem? fun k => ?_
    rw [List.getElem?_take]
    split
    · rename_i hk
      have hw := List.getElem?_eq_getElem (encode_length i ▸ hk)
      rw [fetchWindow_getElem? m addr (Nat.lt_of_lt_of_le hk (instr_length_le i)), h k _ hw, hw]
    · exact (List.getElem?_eq_none (by rw [encode_length]; omega)).symm
  exact ⟨_, by rw [← first, List.take_append_drop]⟩

theorem WordsStandAt.fetch {s : State} {i : Instr} (h : WordsStandAt s.mem s.pc.toNat i) : fetch s = .ok i := by
  have hd := (decodeIffBeginsWithEncoding _ i).2 h.fetchWindow
  simp [Machine.fetch, hd]

/-- Settles O35: the words at the pc are fetched, and decode to their instruction. -/
theorem stepRunsTheDecodedInstruction : Obligations.StepRunsTheDecodedInstruction := by
  intro i s turn (h : WordsStandAt s.mem s.pc.toNat i)
  rw [step_engineTurn turn, h.fetch]

theorem fetchWindow_outside (m : Memory) {pc : Nat} (h : 32768 ≤ pc) : fetchWindow m pc = [] := by
  rw [← List.length_eq_zero_iff, fetchWindow_length]
  omega

/-- Settles O36: outside the memory there is no word to decode, and inside it the first is the one at the pc. -/
theorem fetchPastTheMemoryFaults : Obligations.FetchPastTheMemoryFaults := by
  refine ⟨fun s turn hpc => ?_, fun s hpc => ?_⟩
  · have hd : decode (fetchWindow s.mem s.pc.toNat) = .error .noOpcodeWord := by rw [fetchWindow_outside _ hpc]; rfl
    exact step_of_fetch_error turn (fetch_of_decode_error hd)
  · obtain ⟨ws, hw⟩ := fetchWindow_cons s.mem hpc
    rw [hw, List.head?_cons]

/-! ### Every step answers a next state, and an ended run keeps it (R64, R72, R105, R108) -/

theorem exec_answers (i : Instr) (s : State) : ∃ t, exec i s = .next t := by cases i <;> exact ⟨_, rfl⟩

/-- The engine's turn ends with the fault of fetch or as the fetched instruction does. -/
theorem step_answers_of_engineTurn {s : State} (turn : s.engineTurn) : ∃ t, step s = .next t := by
  rw [step_engineTurn turn]
  cases fetch s with
  | ok i => exact exec_answers i s.dropCommand
  | error fault => exact ⟨_, rfl⟩

/-- Where it is not the engine's turn, a step does what the host's command says, if there is one (R64). -/
theorem step_of_not_engineTurn {s : State} (h : ¬ s.engineTurn) : step s = .next (s.dropCommand.obey s.command) := by
  by_cases hc : s.command = .none
  · have noSteps : s.runState.steps = false := Bool.eq_false_iff.2 fun hs => h ⟨hc, hs⟩
    rw [step_noCommand_of_not_steps hc noSteps, hc, State.obey]
  · exact step_command hc

/-- Settles O41, by whose turn the step is. -/
theorem everyStepAnswersANextState : Obligations.EveryStepAnswersANextState := by
  refine ⟨exec_answers, fun s => ?_⟩
  by_cases turn : s.engineTurn
  · exact step_answers_of_engineTurn turn
  · exact ⟨_, step_of_not_engineTurn turn⟩

/-- Outside IDLE every command but `reset` is ignored (R119, R120). -/
theorem obey_of_not_idle {s : State} {c : HostCommand} (hs : s.runState ≠ .idle) (hc : c ≠ .reset) : s.obey c = s := by
  cases c with
  | none => rfl
  | reset => exact absurd rfl hc
  | load addr data => exact if_neg hs
  | start => exact if_neg hs

/-- Settles O42: no engine step is taken, and of the commands only `reset` does anything. -/
theorem endedRunsAreFinalUntilReset : Obligations.EndedRunsAreFinalUntilReset := by
  intro s ended
  have notTurn : ¬ s.engineTurn := by
    rintro ⟨-, hs⟩
    obtain h | h := ended <;> rw [h] at hs <;> cases hs
  have notIdle : s.dropCommand.runState ≠ .idle := by obtain h | h := ended <;> simp [h]
  rw [step_of_not_engineTurn notTurn]
  refine ⟨fun hc => ?_, fun hc => ?_⟩
  · rw [obey_of_not_idle notIdle hc]
  · rw [hc]
    exact ⟨_, rfl, rfl, rfl, rfl, rfl⟩

/-! ### Placing an instruction (assumption 10) -/

/-- A placed word is read at its place (R36, R119). -/
theorem Memory.read?_place (m : Memory) {addr k : Nat} {ws : List Word} {w : Word} (hw : ws[k]? = some w)
    (h : addr + k < 32768) : (m.place addr ws).read? (addr + k) = some w := by
  obtain ⟨hk, -⟩ := List.getElem?_eq_some_iff.1 hw
  rw [read?_eq_some_iff, Memory.readWord_place, if_pos ⟨by omega, by omega, h⟩, Nat.add_sub_cancel_left,
    List.getD_eq_getElem?_getD, hw]
  exact ⟨h, rfl⟩

/-- Placing words touches no byte but theirs. -/
theorem Memory.readByte_place_outside (m : Memory) {addr n : Nat} {ws : List Word}
    (h : n < 2 * addr ∨ 2 * (addr + ws.length) ≤ n) : (m.place addr ws).readByte n = m.readByte n := by
  induction ws generalizing m addr with
  | nil => rfl
  | cons w ws ih =>
    rw [List.length_cons] at h
    rw [Memory.place, ih _ (by omega)]
    split
    · rw [Memory.readByte_writeWord, if_neg (by omega), if_neg (by omega)]
    · rfl

theorem tableWords_getElem? (nbits w : Nat) {k : Nat} (h : k < 4) :
    (tableWords nbits w)[k]? = some (tableWord nbits w k) := by
  obtain ⟨-, words, -⟩ := tableWordsAreTheirBits
  rw [words, if_pos h]

/-- A placed instruction that fits stands at the pc. -/
theorem wordsStandAt_place (m : Memory) {addr nbits w : Nat} {i : Instr} (hi : decodeTableWord nbits w = some i)
    (fits : addr + i.length ≤ 32768) : WordsStandAt (m.place addr (tableWords nbits w)) addr i := by
  intro k v hv
  obtain ⟨hk, -⟩ := List.getElem?_eq_some_iff.1 hv
  rw [encode_length] at hk
  obtain ⟨-, -, encoded⟩ := tableWordsAreTheirBits
  obtain ⟨rest, hw⟩ := (encoded nbits w i).1 hi
  refine Memory.read?_place m ?_ (by omega)
  rw [hw, List.getElem?_append_left (by rwa [encode_length]), hv]

/-- Placing leaves the run state of an engine that takes steps, and sets any other RUNNING (R120). -/
theorem placeInstr_runState_of_steps {s : State} (h : s.runState.steps = true) (ws : List Word) :
    (s.placeInstr ws).runState = s.runState := if_pos h

theorem placeInstr_runState_of_not_steps {s : State} (h : s.runState.steps = false) (ws : List Word) :
    (s.placeInstr ws).runState = .running := if_neg (by simp [h])

theorem placeInstr_commands (s : State) (ws : List Word) : (s.placeInstr ws).ports.commands =
    if s.command = .none then s.ports.commands else .none :: s.ports.commands := rfl

/-- The step after placing has no command of the host. -/
theorem placeInstr_command (s : State) (ws : List Word) : (s.placeInstr ws).command = .none := by
  rw [State.command, placeInstr_commands]
  split
  · assumption
  · rfl

/-- After placing, the engine has the next step (R64). -/
theorem engineTurn_placeInstr (s : State) (ws : List Word) : (s.placeInstr ws).engineTurn := by
  refine ⟨placeInstr_command s ws, ?_⟩
  cases h : s.runState.steps with
  | true => rw [placeInstr_runState_of_steps h, h]
  | false => rw [placeInstr_runState_of_not_steps h, RunState.steps]

/-- Settles O58: placed words are read where they were put, and the step fetches them. -/
theorem placedInstructionRunsNext : Obligations.PlacedInstructionRunsNext := by
  intro s nbits w t
  have turn : t.engineTurn := engineTurn_placeInstr s (tableWords nbits w)
  refine ⟨turn, fun h => placeInstr_runState_of_steps h _, fun h => placeInstr_runState_of_not_steps h _,
    fun k hk fits => ?_, fun n hn => Memory.readByte_place_outside s.mem hn, rfl, fun i hi fits => ?_⟩
  · obtain ⟨-, word⟩ := read?_eq_some_iff.1 (Memory.read?_place s.mem (tableWords_getElem? nbits w hk) fits)
    exact word
  · exact stepRunsTheDecodedInstruction i t turn (wordsStandAt_place s.mem hi fits)

end Sys2Proof.Machine
end

section
/-! PROOFS. What the effects of a step depend on (R74, R76): an instruction run at two states that may differ in the pc
and in the host's side of the ports does the same to both, said once for each shared operation and from there for every
instruction. -/

namespace Sys2Proof.Machine

/-- The states have the same block but for the pc, and the same parameters, and their hosts give the same answers in
this step. -/
structure Alike (s s' : State) : Prop where
  mem : s'.mem = s.mem
  regs : s'.regs = s.regs
  stack : s'.stack = s.stack
  runState : s'.runState = s.runState
  record : SameFaultRecord s s'
  params : s'.params = s.params
  inAnswer : s'.ports.inAnswer = s.ports.inAnswer
  outAnswer : s'.ports.outAnswer = s.ports.outAnswer

/-- The instruction `i` has done the same from `s` to `t` as from `s'` to `t'`: the two ends may differ only in what
tells the pc, and in the host's side of the ports as the two beginnings did. -/
structure SameEffects (i : Instr) (s s' t t' : State) : Prop where
  mem : t'.mem = t.mem
  regs : t'.regs = t.regs
  stackLength : t'.stack.length = t.stack.length
  stack : s'.pc = s.pc ∨ (∀ a, i ≠ .call a) → t'.stack = t.stack
  pc : t'.pc = t.pc ∨ t'.pc - s'.pc = t.pc - s.pc
  runState : t'.runState = t.runState
  kind : t'.kind = t.kind
  faultPc : s'.pc = s.pc → t'.faultPc = t.faultPc
  faultValue : t'.faultValue = t.faultValue
  params : t'.params = t.params
  output : s'.ports.output = s.ports.output → t'.ports.output = t.ports.output
  feed : s'.ports.feed = s.ports.feed → t'.ports.feed = t.ports.feed

/-! ### What is read is the same -/

namespace Alike

variable {s s' : State}

theorem reg (h : Alike s s') (r : Fin 8) : s'.reg r = s.reg r := by simp [State.reg, h.regs]

theorem value? (h : Alike s s') (raw : Word) : s'.value? raw = s.value? raw := by
  have : s'.reg = s.reg := funext h.reg
  simp [State.value?, this]

theorem transfer? (h : Alike s s') (raw : Word) : s'.transfer? raw = s.transfer? raw := by
  simp [State.transfer?, h.params, h.value?]

theorem stackFull (h : Alike s s') : s'.stackFull = s.stackFull := by simp [State.stackFull, h.params, h.stack]

theorem capacityValue (h : Alike s s') : s'.capacityValue = s.capacityValue := by
  simp [State.capacityValue, h.params]

end Alike

namespace SameEffects

variable {i : Instr} {s s' t t' : State}

/-! ### Updates that keep the effects the same -/

theorem refl (h : Alike s s') : SameEffects i s s' s s' where
  mem := h.mem
  regs := h.regs
  stackLength := congrArg _ h.stack
  stack _ := h.stack
  pc := .inr (by simp)
  runState := h.runState
  kind := h.record.1
  faultPc _ := h.record.2.1
  faultValue := h.record.2.2
  params := h.params
  output := id
  feed := id

/-- From the same pc the same effects lead to the same pc. -/
theorem pc_eq (h : SameEffects i s s' t t') (hp : s'.pc = s.pc) : t'.pc = t.pc := by
  obtain h | h := h.pc
  · exact h
  · rw [hp] at h
    simpa using h

theorem setReg (h : SameEffects i s s' t t') (d : Fin 8) (v : Word) :
    SameEffects i s s' (t.setReg d v) (t'.setReg d v) := { h with regs := by simp [h.regs] }

theorem withMem (h : SameEffects i s s' t t') (m : Memory) :
    SameEffects i s s' { t with mem := m } { t' with mem := m } := { h with mem := rfl }

theorem withStack (h : SameEffects i s s' t t') (stack : List Word) :
    SameEffects i s s' { t with stack := stack } { t' with stack := stack } :=
  { h with stackLength := rfl, stack := fun _ => rfl }

theorem halt (h : SameEffects i s s' t t') :
    SameEffects i s s' { t with runState := .halted } { t' with runState := .halted } := { h with runState := rfl }

theorem withPorts (h : SameEffects i s s' t t') {p p' : Ports}
    (output : t'.ports.output = t.ports.output → p'.output = p.output)
    (feed : t'.ports.feed = t.ports.feed → p'.feed = p.feed) :
    SameEffects i s s' { t with ports := p } { t' with ports := p' } :=
  { h with output := output ∘ h.output, feed := feed ∘ h.feed }

theorem takeIn (h : SameEffects i s s' t t') :
    SameEffects i s s' { t with ports := t.ports.takeIn } { t' with ports := t'.ports.takeIn } :=
  h.withPorts (by simp) (by simp)

theorem takeOut (h : SameEffects i s s' t t') :
    SameEffects i s s' { t with ports := t.ports.takeOut } { t' with ports := t'.ports.takeOut } :=
  h.withPorts (by simp) (by simp)

theorem emitted (h : SameEffects i s s' t t') (v : Word) :
    SameEffects i s s' { t with ports := { t.ports with output := t.ports.output ++ [v] } }
      { t' with ports := { t'.ports with output := t'.ports.output ++ [v] } } :=
  h.withPorts (congrArg (· ++ [v])) id

theorem feedAddr (h : SameEffects i s s' t t') (a : Word) :
    SameEffects i s s' (t.feedAddr a) (t'.feedAddr a) :=
  h.withPorts id fun hf => by simp [hf, h.params]

/-! ### How a step ends -/

theorem raise (h : SameEffects i s s' t t') (k : FaultKind) (v : Word) :
    SameEffects i s s' (t.raise k v) (t'.raise k v) :=
  { h with runState := rfl, kind := rfl, faultPc := h.pc_eq, faultValue := rfl }

theorem hold (h : SameEffects i s s' t t') (w : RunState) : SameEffects i s s' (t.hold w) (t'.hold w) :=
  { h with runState := rfl }

theorem commit (h : SameEffects i s s' t t') {n n' : Word} (pc : n' = n ∨ n' - s'.pc = n - s.pc) :
    SameEffects i s s' (s.commit i n t) (s'.commit i n' t') :=
  { h with pc := pc, runState := congrArg RunState.resumed h.runState }

/-- The default sequencing moves both pcs by the length of the instruction (R71). -/
theorem commitNext (h : SameEffects i s s' t t') : SameEffects i s s' (s.commitNext i t) (s'.commitNext i t') :=
  h.commit (.inr (by simp [State.nextPc]))

theorem commitJump (h : SameEffects i s s' t t') (target : Word) :
    SameEffects i s s' (s.commitJump i target t) (s'.commitJump i target t') :=
  (h.feedAddr target).commit (.inl rfl)

theorem jumpIf (h : Alike s s') (taken : Bool) (target : Word) :
    SameEffects i s s' (jumpIf i taken target s) (jumpIf i taken target s') := by
  cases taken with
  | true => exact (refl h).commitJump target
  | false => exact (refl h).commitNext

/-! ### The shared operations -/

theorem operand {α : Type} (h : Alike s s') {raw : Word} {d d' : Option α} {k k' : α → State} (hd : d' = d)
    (hk : ∀ v, SameEffects i s s' (k v) (k' v)) :
    SameEffects i s s' (withOperand s raw d k) (withOperand s' raw d' k') := by
  subst hd
  cases d' with
  | some v => exact hk v
  | none => exact (refl h).raise _ _

theorem dest (h : Alike s s') {raw : Word} {k k' : Fin 8 → State} (hk : ∀ d, SameEffects i s s' (k d) (k' d)) :
    SameEffects i s s' (withDest s raw k) (withDest s' raw k') := operand h rfl hk

theorem value (h : Alike s s') {raw : Word} {k k' : Word → State} (hk : ∀ v, SameEffects i s s' (k v) (k' v)) :
    SameEffects i s s' (withValue s raw k) (withValue s' raw k') := operand h (h.value? raw) hk

theorem transfer (h : Alike s s') {raw : Word} {k k' : Word → State} (hk : ∀ v, SameEffects i s s' (k v) (k' v)) :
    SameEffects i s s' (withTransfer s raw k) (withTransfer s' raw k') := operand h (h.transfer? raw) hk

/-- Pushes may differ in what they push: CALL pushes what tells the pc. -/
theorem push (h : Alike s s') {v v' : Word} {k k' : State → State}
    (hk : SameEffects i s s' (k { s with stack := s.stack ++ [v] }) (k' { s' with stack := s'.stack ++ [v'] })) :
    SameEffects i s s' (withPush s v k) (withPush s' v' k') := by
  unfold withPush
  rw [h.stackFull, h.capacityValue]
  split
  · exact (refl h).raise _ _
  · exact hk

theorem pop (h : Alike s s') {k k' : Word → State → State}
    (hk : ∀ v rest, SameEffects i s s' (k v { s with stack := rest }) (k' v { s' with stack := rest })) :
    SameEffects i s s' (withPop s k) (withPop s' k') := by
  unfold withPop
  rw [h.stack]
  cases s.stack.getLast? with
  | some v => exact hk v _
  | none => exact (refl h).raise _ _

theorem memRead (h : Alike s s') {addr : Word} {k k' : Word → State} (hk : ∀ v, SameEffects i s s' (k v) (k' v)) :
    SameEffects i s s' (withMemRead s addr k) (withMemRead s' addr k') := by
  unfold withMemRead
  rw [h.mem]
  cases s.mem.read? addr.toNat with
  | some v => exact hk v
  | none => exact (refl h).raise _ _

theorem memWrite (h : Alike s s') {addr v : Word} {k k' : State → State}
    (hk : ∀ m, SameEffects i s s' (k { s with mem := m }) (k' { s' with mem := m })) :
    SameEffects i s s' (withMemWrite s addr v k) (withMemWrite s' addr v k') := by
  unfold withMemWrite
  rw [h.mem]
  cases s.mem.write? addr.toNat v with
  | some m => exact hk m
  | none => exact (refl h).raise _ _

theorem receive (h : Alike s s') {k k' : Byte → State → State}
    (hk : ∀ b {u u'}, SameEffects i s s' u u' → SameEffects i s s' (k b u) (k' b u')) :
    SameEffects i s s' (withReceive s k) (withReceive s' k') := by
  unfold withReceive
  rw [h.inAnswer]
  cases s.ports.inAnswer with
  | byte b => exact hk b (refl h).takeIn
  | eof => exact (refl h).takeIn.raise _ _
  | fail => exact (refl h).takeIn.raise _ _
  | none => exact (refl h).takeIn.hold _

theorem emit (h : Alike s s') {v : Word} {k k' : State → State}
    (hk : ∀ {u u'}, SameEffects i s s' u u' → SameEffects i s s' (k u) (k' u')) :
    SameEffects i s s' (withEmit s v k) (withEmit s' v k') := by
  unfold withEmit
  rw [h.outAnswer]
  cases s.ports.outAnswer with
  | accept => exact hk ((refl h).takeOut.emitted v)
  | fail => exact (refl h).takeOut.raise _ _
  | none => exact (refl h).takeOut.hold _

theorem destValue (h : Alike s s') {a b : Word} {f : Word → Word} :
    SameEffects i s s' (destValue i a b f s) (destValue i a b f s') :=
  dest h fun d => value h fun B => ((refl h).setReg d (f B)).commitNext

theorem destValueValue (h : Alike s s') {a b c : Word} {f : Word → Word → Word} :
    SameEffects i s s' (destValueValue i a b c f s) (destValueValue i a b c f s') :=
  dest h fun d => value h fun B => value h fun C => ((refl h).setReg d (f B C)).commitNext

/-- CALL pushes the return address, which tells the pc: from the same pc it is the same. -/
theorem pushReturn (h : Alike s s') (a : Word) :
    SameEffects (.call a) s s' { s with stack := s.stack ++ [s.nextPc (.call a)] }
      { s' with stack := s'.stack ++ [s'.nextPc (.call a)] } :=
  { (refl h : SameEffects (.call a) s s' s s') with
    stackLength := by simp [h.stack]
    stack := fun
      | .inl hp => by simp [h.stack, State.nextPc, hp]
      | .inr hc => absurd rfl (hc a) }

end SameEffects

/-- Every instruction does the same to states that are alike. -/
theorem exec_sameEffects {i : Instr} {s s' t t' : State} (h : Alike s s') (ht : exec i s = .next t)
    (ht' : exec i s' = .next t') : SameEffects i s s' t t' := by
  have start : SameEffects i s s' s s' := .refl h
  cases i with
  | halt => cases ht; cases ht'; exact start.halt.commitNext
  | noop => cases ht; cases ht'; exact start.commitNext
  | set | not => cases ht; cases ht'; exact .destValue h
  | eq | gt | add | mult | and | or => cases ht; cases ht'; exact .destValueValue h
  | mod a b c =>
    cases ht; cases ht'
    refine .dest h fun d => .value h fun B => .value h fun C => ?_
    split
    · exact start.raise _ _
    · exact (start.setReg d _).commitNext
  | push a =>
    cases ht; cases ht'
    refine .value h fun A => .push h ?_
    rw [h.stack]
    exact (start.withStack _).commitNext
  | pop a =>
    cases ht; cases ht'
    exact .dest h fun d => .pop h fun v rest => ((start.withStack rest).setReg d v).commitNext
  | jmp a => cases ht; cases ht'; exact .transfer h start.commitJump
  | jt a b | jf a b => cases ht; cases ht'; exact .value h fun A => .transfer h fun B => .jumpIf h _ B
  | rmem a b =>
    cases ht; cases ht'
    exact .dest h fun d => .value h fun B => .memRead h fun v => (start.setReg d v).commitNext
  | wmem a b =>
    cases ht; cases ht'
    exact .value h fun A => .value h fun B => .memWrite h fun m => (start.withMem m).commitNext
  | call a => cases ht; cases ht'; exact .transfer h fun A => .push h ((SameEffects.pushReturn h a).commitJump A)
  | ret => cases ht; cases ht'; exact .pop h fun v rest => (start.withStack rest).commitJump v
  | out a => cases ht; cases ht'; exact .transfer h fun A => .emit h .commitNext
  | inp a =>
    cases ht; cases ht'
    exact .dest h fun d => .receive h fun b _ _ taken => (taken.setReg d _).commitNext

/-- Settles O53: a state and the same state at another pc are alike. -/
theorem effectsDoNotDependOnThePlace : Obligations.EffectsDoNotDependOnThePlace := by
  intro i s t t' q ht ht'
  have alike : Alike s { s with pc := q } := ⟨rfl, rfl, rfl, rfl, ⟨rfl, rfl, rfl⟩, rfl, rfl, rfl⟩
  have same := exec_sameEffects alike ht ht'
  exact ⟨same.mem, same.regs, same.runState, same.kind, same.output rfl, same.feed rfl, same.stackLength,
    fun notCall => same.stack (.inr notCall), same.pc⟩

/-! ### The step is a function of the block and of the host's answers (R74) -/

/-- From the same pc the same effects make the same block. -/
theorem SameEffects.sameBlock {i : Instr} {s s' t t' : State} (h : SameEffects i s s' t t') (hp : s'.pc = s.pc) :
    SameBlock t t' :=
  ⟨h.mem, h.regs, h.stack (.inl hp), h.pc_eq hp, h.runState, h.kind, h.faultPc hp, h.faultValue⟩

namespace SameBlock

variable {s s' : State}

/-- The host's side of the ports is not the block's. -/
theorem dropCommand (h : SameBlock s s') : SameBlock s.dropCommand s'.dropCommand := h

theorem raise (h : SameBlock s s') (k : FaultKind) (v : Word) : SameBlock (s.raise k v) (s'.raise k v) := by
  obtain ⟨mem, regs, stack, pc, -, -⟩ := h
  exact ⟨mem, regs, stack, pc, rfl, rfl, pc, rfl⟩

theorem loadByHost (h : SameBlock s s') (addr : BitVec 15) (data : Word) :
    SameBlock (s.loadByHost addr data) (s'.loadByHost addr data) := by
  obtain ⟨mem, regs, stack, pc, run, record⟩ := h
  unfold State.loadByHost
  rw [run, mem]
  split
  · exact ⟨rfl, regs, stack, pc, rfl, record⟩
  · exact ⟨mem, regs, stack, pc, run, record⟩

theorem startByHost (h : SameBlock s s') : SameBlock s.startByHost s'.startByHost := by
  obtain ⟨mem, regs, stack, pc, run, record⟩ := h
  unfold State.startByHost
  rw [run]
  split
  · exact ⟨mem, regs, stack, pc, rfl, record⟩
  · exact ⟨mem, regs, stack, pc, run, record⟩

theorem obey (h : SameBlock s s') (c : HostCommand) : SameBlock (s.obey c) (s'.obey c) := by
  cases c with
  | none => exact h
  | reset => exact ⟨rfl, rfl, rfl, rfl, rfl, rfl, rfl, rfl⟩
  | load addr data => exact h.loadByHost addr data
  | start => exact h.startByHost

end SameBlock

/-- Settles O51: a step is a command's, or fetch's fault, or the fetched instruction's, which does the same to both. -/
theorem onlyTheHostsAnswersAreFreeInputs : Obligations.OnlyTheHostsAnswersAreFreeInputs := by
  intro s s' t t' block params command inAnswer outAnswer ht ht'
  have ⟨mem, regs, stack, pc, run, record⟩ := block
  by_cases turn : s.engineTurn
  · have turn' : s'.engineTurn := by rwa [State.engineTurn, command, run]
    rw [step_engineTurn turn] at ht
    rw [step_engineTurn turn', fetch_congr mem pc params] at ht'
    cases hf : fetch s with
    | ok i =>
      rw [hf] at ht ht'
      have alike : Alike s.dropCommand s'.dropCommand := ⟨mem, regs, stack, run, record, params, inAnswer, outAnswer⟩
      exact (exec_sameEffects alike ht ht').sameBlock pc
    | error fault =>
      rw [hf] at ht ht'
      cases ht
      cases ht'
      exact block.dropCommand.raise _ _
  · have turn' : ¬ s'.engineTurn := by rwa [State.engineTurn, command, run]
    rw [step_of_not_engineTurn turn] at ht
    rw [step_of_not_engineTurn turn', command] at ht'
    cases ht
    cases ht'
    exact block.dropCommand.obey s.command

end Sys2Proof.Machine
end

section
/-! PROOFS. What the statements of single instructions share: the decode faults of the operand words, for every instruction
(R57, R59, R110), and what a commit leaves unchanged (R50, R70, R71, R115). -/

namespace Sys2Proof.Machine

/-! ### Decode faults -/

theorem firstRejected?_cons (resolve : Bool) (kind : Kind) (kinds : List Kind) (raw : Word) (raws : List Word) :
    firstRejected? resolve (kind :: kinds) (raw :: raws) =
      if operandAccepted resolve kind raw then firstRejected? resolve kinds raws else some raw := by
  cases h : operandAccepted resolve kind raw <;> simp [firstRejected?, h]

/-- The step from `s` to `t` decodes the operand words `raws` by their `kinds` before all else: the first word that its kind
does not accept is the fault it raises (R57, R110). -/
def DecodesFirst (s : State) (kinds : List Kind) (raws : List Word) (t : State) : Prop :=
  ∀ w, firstRejected? s.params.resolveTransferOperands kinds raws = some w → t = s.raise .invalidRegisterReference w

namespace DecodesFirst

variable {s : State} {kinds : List Kind} {raw : Word} {raws : List Word}

theorem nil {t : State} : DecodesFirst s [] [] t := nofun

theorem operand {α : Type} {kind : Kind} {d : Option α} {k : α → State}
    (accepted : operandAccepted s.params.resolveTransferOperands kind raw = d.isSome)
    (hk : ∀ v, DecodesFirst s kinds raws (k v)) :
    DecodesFirst s (kind :: kinds) (raw :: raws) (withOperand s raw d k) := by
  intro w hw
  rw [firstRejected?_cons, accepted] at hw
  cases d with
  | some v => exact hk v w hw
  | none =>
    obtain rfl := Option.some.inj hw
    rfl

theorem dest {k : Fin 8 → State} (hk : ∀ d, DecodesFirst s kinds raws (k d)) :
    DecodesFirst s (.dest :: kinds) (raw :: raws) (withDest s raw k) := operand (operandAccepted_dest _ raw) hk

theorem value {k : Word → State} (hk : ∀ v, DecodesFirst s kinds raws (k v)) :
    DecodesFirst s (.value :: kinds) (raw :: raws) (withValue s raw k) := operand (operandAccepted_value s _ raw) hk

theorem address {k : Word → State} (hk : ∀ v, DecodesFirst s kinds raws (k v)) :
    DecodesFirst s (.address :: kinds) (raw :: raws) (withTransfer s raw k) := operand (operandAccepted_address s raw) hk

theorem char {k : Word → State} (hk : ∀ v, DecodesFirst s kinds raws (k v)) :
    DecodesFirst s (.char :: kinds) (raw :: raws) (withTransfer s raw k) := operand (operandAccepted_char s raw) hk

end DecodesFirst

/-- Every instruction decodes its operand words, by the kinds of its row of R52, before all else. -/
theorem exec_decodesFirst {i : Instr} {s t : State} (h : exec i s = .next t) : DecodesFirst s i.kinds i.operands t := by
  cases i with
  | halt | ret | noop => exact .nil
  | set | not | rmem => cases h; exact .dest fun _ => .value fun _ => .nil
  | push => cases h; exact .value fun _ => .nil
  | pop | inp => cases h; exact .dest fun _ => .nil
  | eq | gt | add | mult | mod | and | or => cases h; exact .dest fun _ => .value fun _ => .value fun _ => .nil
  | jmp | call => cases h; exact .address fun _ => .nil
  | jt | jf => cases h; exact .value fun _ => .address fun _ => .nil
  | wmem => cases h; exact .value fun _ => .value fun _ => .nil
  | out => cases h; exact .char fun _ => .nil

/-- A fault that the arm raises is taken, and the host has not been asked. -/
theorem exec_raises {i : Instr} {s : State} {kind : FaultKind} {value : Word}
    (h : exec i s = .next (s.raise kind value)) :
    ∃ t, exec i s = .next t ∧ FaultTaken kind value s t ∧ NoInput s t ∧ NoOutput s t :=
  ⟨_, h, faultTaken_raise s kind value, ⟨rfl, rfl⟩, ⟨rfl, rfl, rfl⟩⟩

/-- The decode faults of every instruction (R57, R59). -/
theorem rejectsBadOperands (i : Instr) (s : State) : RejectsBadOperands i s := by
  intro w hw
  obtain ⟨t, ht⟩ := exec_answers i s
  obtain rfl := exec_decodesFirst ht w hw
  exact exec_raises ht

/-! ### Commits -/

@[simp] theorem State.reg_commitNext (i : Instr) (s t : State) (r : Fin 8) : (s.commitNext i t).reg r = t.reg r := rfl

/-- A commit that leaves the run state to R70 ends a wait, and any other run state stays. -/
theorem resumes_of_resumed {s t : State} (h : t.runState = s.runState.resumed) : Resumes s t := by
  unfold Resumes State.waiting
  rw [h]
  cases s.runState <;> simp [RunState.resumed]

/-- A commit keeps the fault record and the surroundings where its writes do (R70), and it emits the trace record (R115). -/
theorem commits_commit {i : Instr} {s u : State} (n : Word) (run : u.runState = s.runState) (record : SameFaultRecord s u)
    (surroundings : SameSurroundings s u) : Commits i s (s.commit i n u) :=
  ⟨resumes_of_resumed (congrArg RunState.resumed run), record, surroundings, rfl⟩

/-- The default sequencing moves the pc on by the length of the instruction (R50, R71). -/
theorem advances_commitNext (i : Instr) (s u : State) : Advances i.length s (s.commitNext i u) :=
  fun h => nextPc_toNat s i h (instr_length_le i)

theorem sameRegsBut_setReg (s : State) (d : Fin 8) (v : Word) : SameRegsBut d s (s.setReg d v) := by
  intro r hr
  simp [hr]

/-- The commit of one register write changes nothing else but the pc (R17, R70, R71). -/
theorem writesOnlyReg_setReg (i : Instr) (s : State) (d : Fin 8) (v : Word) :
    WritesOnlyReg i i.length d s (s.commitNext i (s.setReg d v)) :=
  ⟨commits_commit _ rfl ⟨rfl, rfl, rfl⟩ ⟨rfl, rfl⟩, advances_commitNext i s _, sameRegsBut_setReg s d v, fun _ => rfl, rfl,
    ⟨rfl, rfl⟩, ⟨rfl, rfl, rfl⟩, rfl⟩

/-- With its operands decoded, an instruction of the shape D, V commits its result to the destination register. -/
theorem destValue_decoded {s : State} {a b B : Word} {d : Fin 8} (i : Instr) (f : Word → Word)
    (ha : destIndex? a = some d) (hb : s.value? b = some B) :
    destValue i a b f s = s.commitNext i (s.setReg d (f B)) := by
  simp only [destValue, withDest, withValue, ha, hb, withOperand_some]

end Sys2Proof.Machine
end

section
/-! PROOFS. HALT, SET, PUSH and POP (R80 to R83). -/

namespace Sys2Proof.Machine

/-- Settles O7: the arm commits the halted state. -/
theorem haltEndsTheRun : Obligations.HaltEndsTheRun := fun s =>
  ⟨rfl, _, rfl, rfl, advances_commitNext .halt s _, fun _ => rfl, fun _ => rfl, rfl, ⟨rfl, rfl, rfl⟩, ⟨rfl, rfl⟩, rfl,
    ⟨rfl, rfl⟩, ⟨rfl, rfl, rfl⟩, rfl⟩

/-! ### SET (R81) -/

theorem exec_set_decoded {s : State} {a b B : Word} {d : Fin 8} (ha : destIndex? a = some d) (hb : s.value? b = some B) :
    exec (.set a b) s = .next (s.commitNext (.set a b) (s.setReg d B)) :=
  congrArg Host.Outcome.next (destValue_decoded (.set a b) id ha hb)

/-- Settles O8: the commit writes the value to the destination register alone. -/
theorem setCopiesTheValue : Obligations.SetCopiesTheValue := fun a b s =>
  ⟨rfl, fun d B ha hb => ⟨_, exec_set_decoded ha hb, by simp, writesOnlyReg_setReg (.set a b) s d B⟩,
    rejectsBadOperands (.set a b) s⟩

/-! ### PUSH (R82) -/

theorem exec_push_decoded {s : State} {a A : Word} (ha : s.value? a = some A) :
    exec (.push a) s = .next (withPush s A fun t => s.commitNext (.push a) t) := by
  simp only [exec, execPush, withValue, ha, withOperand_some]

/-- Settles O9, by whether the stack has room. -/
theorem pushAppendsTheValue : Obligations.PushAppendsTheValue := by
  refine fun a s => ⟨rfl, fun A ha room => ?_, fun A n ha bounded full => ?_, rejectsBadOperands (.push a) s⟩
  · refine ⟨s.commitNext (.push a) { s with stack := s.stack ++ [A] }, ?_, rfl, advances_commitNext (.push a) s _, rfl,
      commits_commit _ rfl ⟨rfl, rfl, rfl⟩ ⟨rfl, rfl⟩, fun _ => rfl, fun _ => rfl, ⟨rfl, rfl⟩, ⟨rfl, rfl, rfl⟩⟩
    rw [exec_push_decoded ha, withPush_room s A _ room]
  · apply exec_raises
    rw [exec_push_decoded ha, withPush_full s A _ bounded full]

/-! ### POP (R83) -/

theorem exec_pop_decoded {s : State} {a : Word} {d : Fin 8} (ha : destIndex? a = some d) :
    exec (.pop a) s = .next (withPop s fun v t => s.commitNext (.pop a) (t.setReg d v)) := by
  simp only [exec, execPop, withDest, ha, withOperand_some]

/-- Settles O10, by whether the stack has an entry. -/
theorem popMovesTheTopToTheRegister : Obligations.PopMovesTheTopToTheRegister := by
  refine fun a s => ⟨rfl, fun d v rest ha stack => ?_, fun d ha empty => ?_, rejectsBadOperands (.pop a) s⟩
  · refine ⟨s.commitNext (.pop a) (State.setReg { s with stack := rest } d v), ?_, by simp, rfl,
      commits_commit _ rfl ⟨rfl, rfl, rfl⟩ ⟨rfl, rfl⟩, advances_commitNext (.pop a) s _,
      sameRegsBut_setReg { s with stack := rest } d v, fun _ => rfl, ⟨rfl, rfl⟩, ⟨rfl, rfl, rfl⟩, rfl⟩
    rw [exec_pop_decoded ha, withPop_concat s _ stack]
  · apply exec_raises
    rw [exec_pop_decoded ha, withPop_nil s _ empty]

end Sys2Proof.Machine
end

section
/-! PROOFS. The shape D, V, V, and with it EQ and GT (R84, R85). -/

namespace Sys2Proof.Machine

/-- With its operands decoded, an instruction of the shape D, V, V commits its result to the destination register. -/
theorem destValueValue_decoded {s : State} {a b c B C : Word} {d : Fin 8} (i : Instr) (f : Word → Word → Word)
    (ha : destIndex? a = some d) (hb : s.value? b = some B) (hc : s.value? c = some C) :
    destValueValue i a b c f s = s.commitNext i (s.setReg d (f B C)) := by
  simp only [destValueValue, withDest, withValue, ha, hb, hc, withOperand_some]

/-- An instruction whose arm is of the shape D, V, V writes its result to the destination register alone. -/
theorem exec_writes_of_destValueValue {i : Instr} {s : State} {a b c B C : Word} {d : Fin 8} {f : Word → Word → Word}
    (arm : exec i s = .next (destValueValue i a b c f s))
    (ha : destIndex? a = some d) (hb : s.value? b = some B) (hc : s.value? c = some C) :
    ∃ t, exec i s = .next t ∧ t.reg d = f B C ∧ WritesOnlyReg i i.length d s t := by
  rw [destValueValue_decoded i f ha hb hc] at arm
  exact ⟨_, arm, by simp, writesOnlyReg_setReg i s d (f B C)⟩

/-! ### EQ (R84) -/

theorem truthWord_valuesEqual (B C : Word) : truthWord (valuesEqual B C) = if B = C then 1 else 0 := by
  simp [truthWord, valuesEqual, BitVec.toNat_inj]

/-- Settles O11: equal words are words of equal value. -/
theorem eqComparesWholeWords : Obligations.EqComparesWholeWords := by
  refine fun a b c s => ⟨rfl, fun d B C ha hb hc => ?_, rejectsBadOperands (.eq a b c) s⟩
  obtain ⟨t, answer, result, frame⟩ := exec_writes_of_destValueValue (i := .eq a b c) rfl ha hb hc
  exact ⟨t, answer, result.trans (truthWord_valuesEqual B C), frame⟩

/-! ### GT (R85) -/

theorem truthWord_valueGreater (B C : Word) : truthWord (valueGreater B C) = if B.toNat > C.toNat then 1 else 0 := by
  simp [truthWord, valueGreater]

/-- Settles O12: the comparison is of the words' unsigned values. -/
theorem gtComparesUnsigned : Obligations.GtComparesUnsigned := by
  refine fun a b c s => ⟨rfl, fun d B C ha hb hc => ?_, rejectsBadOperands (.gt a b c) s⟩
  obtain ⟨t, answer, result, frame⟩ := exec_writes_of_destValueValue (i := .gt a b c) rfl ha hb hc
  exact ⟨t, answer, result.trans (truthWord_valueGreater B C), frame⟩

end Sys2Proof.Machine
end

section
/-! PROOFS. JMP, JT and JF (R86 to R88). -/

namespace Sys2Proof.Machine

/-! ### The two ends of a jump -/

/-- A commit that writes only the stack, the feed and the pc: PUSH and every control transfer end in one (R70, R114). -/
theorem writesNoRegOrMemory_commit (i : Instr) (s : State) (n : Word) (stack feed : List Word) :
    WritesNoRegOrMemory i s (s.commit i n { s with stack := stack, ports := { s.ports with feed := feed } }) :=
  ⟨commits_commit n rfl ⟨rfl, rfl, rfl⟩ ⟨rfl, rfl⟩, fun _ => rfl, fun _ => rfl, ⟨rfl, rfl⟩, ⟨rfl, rfl, rfl⟩⟩

/-- A taken transfer that leaves the stack alone (R114). -/
theorem commitJump_takes (i : Instr) (s : State) (target : Word) :
    (s.commitJump i target s).pc = target ∧ Fed target s (s.commitJump i target s) ∧
      (s.commitJump i target s).stack = s.stack ∧ WritesNoRegOrMemory i s (s.commitJump i target s) :=
  ⟨rfl, rfl, rfl, writesNoRegOrMemory_commit i s target _ _⟩

/-- With its operands decoded, an arm of the shape V, A goes to the target and feeds it where the test of the value holds,
and moves on without a feed where it does not. -/
theorem exec_branches_of_jumpIf {i : Instr} {s : State} {a b A B : Word} {test : Word → Bool}
    (arm : exec i s = .next (withValue s a fun v => withTransfer s b fun target => jumpIf i (test v) target s))
    (ha : s.value? a = some A) (hb : s.transfer? b = some B) :
    ∃ t, exec i s = .next t ∧ t.stack = s.stack ∧ WritesNoRegOrMemory i s t ∧
      (test A = true → t.pc = B ∧ Fed B s t) ∧ (test A = false → Advances i.length s t ∧ NoFeed s t) := by
  simp only [withValue, withTransfer, ha, hb, withOperand_some] at arm
  refine ⟨_, arm, ?_⟩
  cases test A with
  | true =>
    obtain ⟨pc, fed, stack, frame⟩ := commitJump_takes i s B
    exact ⟨stack, frame, fun _ => ⟨pc, fed⟩, nofun⟩
  | false => exact ⟨rfl, writesNoRegOrMemory_commit i s _ _ _, nofun, fun _ => ⟨advances_commitNext i s s, rfl⟩⟩

/-! ### JMP (R86) -/

theorem exec_jmp_decoded {s : State} {a A : Word} (ha : s.transfer? a = some A) :
    exec (.jmp a) s = .next (s.commitJump (.jmp a) A s) := by
  simp only [exec, execJmp, withTransfer, ha, withOperand_some]

/-- Settles O13: the arm commits the taken transfer. -/
theorem jmpGoesToTheTarget : Obligations.JmpGoesToTheTarget := fun a s =>
  ⟨rfl, fun A ha => ⟨_, exec_jmp_decoded ha, commitJump_takes (.jmp a) s A⟩, rejectsBadOperands (.jmp a) s⟩

/-! ### JT and JF (R87, R88) -/

theorem isNonZero_eq_true {v : Word} : isNonZero v = true ↔ v ≠ 0 := by simp [isNonZero]

theorem isNonZero_eq_false {v : Word} : isNonZero v = false ↔ v = 0 := by simp [isNonZero]

/-- Settles O14: the test is that the value is not 0. -/
theorem jtJumpsOnNonZero : Obligations.JtJumpsOnNonZero := by
  refine fun a b s => ⟨rfl, fun A B ha hb => ?_, rejectsBadOperands (.jt a b) s⟩
  obtain ⟨t, answer, stack, frame, taken, passed⟩ := exec_branches_of_jumpIf (i := .jt a b) (test := isNonZero) rfl ha hb
  exact ⟨t, answer, stack, frame, fun h => taken (isNonZero_eq_true.2 h), fun h => passed (isNonZero_eq_false.2 h)⟩

/-- Settles O15: the test is JT's, negated. -/
theorem jfJumpsOnZero : Obligations.JfJumpsOnZero := by
  refine fun a b s => ⟨rfl, fun A B ha hb => ?_, rejectsBadOperands (.jf a b) s⟩
  obtain ⟨t, answer, stack, frame, taken, passed⟩ :=
    exec_branches_of_jumpIf (i := .jf a b) (test := fun v => !isNonZero v) rfl ha hb
  exact ⟨t, answer, stack, frame, fun h => taken (by rw [isNonZero_eq_false.2 h, Bool.not_false]),
    fun h => passed (by rw [isNonZero_eq_true.2 h, Bool.not_true])⟩

end Sys2Proof.Machine
end

section
/-! PROOFS. ADD, MULT, MOD, AND, OR and NOT (R89 to R95). -/

namespace Sys2Proof.Machine

/-! ### ADD (R90) and MULT (R91) -/

/-- A number reduced modulo 32768 fits a register word (R89). -/
theorem toNat_reduced (n : Nat) : (BitVec.ofNat 16 (n % Config.modulus)).toNat = n % 32768 := by
  rw [BitVec.toNat_ofNat, Config.modulus]
  omega

theorem toNat_addMod (B C : Word) : (addMod B C).toNat = (B.toNat + C.toNat) % 32768 :=
  toNat_reduced (B.toNat + C.toNat)

theorem toNat_multMod (B C : Word) : (multMod B C).toNat = B.toNat * C.toNat % 32768 :=
  toNat_reduced (B.toNat * C.toNat)

/-- Settles O16: the exact sum, reduced, fits a word. -/
theorem addWrapsModulo32768 : Obligations.AddWrapsModulo32768 := by
  refine fun a b c s => ⟨rfl, fun d B C ha hb hc => ?_, rejectsBadOperands (.add a b c) s⟩
  obtain ⟨t, answer, result, frame⟩ := exec_writes_of_destValueValue (i := .add a b c) rfl ha hb hc
  exact ⟨t, answer, result ▸ toNat_addMod B C, frame⟩

/-- Settles O17: the exact product, reduced, fits a word. -/
theorem multWrapsModulo32768 : Obligations.MultWrapsModulo32768 := by
  refine fun a b c s => ⟨rfl, fun d B C ha hb hc => ?_, rejectsBadOperands (.mult a b c) s⟩
  obtain ⟨t, answer, result, frame⟩ := exec_writes_of_destValueValue (i := .mult a b c) rfl ha hb hc
  exact ⟨t, answer, result ▸ toNat_multMod B C, frame⟩

/-! ### MOD (R92) -/

theorem toNat_remainder (B C : Word) : (remainder B C).toNat = B.toNat % C.toNat := by
  rw [remainder, BitVec.toNat_ofNat, Nat.mod_eq_of_lt ((Nat.mod_le _ _).trans_lt B.isLt)]

theorem exec_mod_decoded {s : State} {a b c B C : Word} {d : Fin 8} (ha : destIndex? a = some d)
    (hb : s.value? b = some B) (hc : s.value? c = some C) :
    exec (.mod a b c) s = .next (if C = 0 then s.raise .divisionByZero 0
      else s.commitNext (.mod a b c) (s.setReg d (remainder B C))) := by
  simp only [exec, execMod, withDest, withValue, ha, hb, hc, withOperand_some]

/-- Settles O18, by whether the divisor is 0. -/
theorem modIsTheUnsignedRemainder : Obligations.ModIsTheUnsignedRemainder := by
  refine fun a b c s =>
    ⟨rfl, fun d B C ha hb hc nonzero => ?_, fun d B ha hb hc => ?_, rejectsBadOperands (.mod a b c) s⟩
  · have positive : 0 < C.toNat := BitVec.toNat_pos_of_ne_zero nonzero
    have result : ((s.commitNext (.mod a b c) (s.setReg d (remainder B C))).reg d).toNat = B.toNat % C.toNat := by
      simp [toNat_remainder]
    refine ⟨_, ?_, result, result ▸ Nat.mod_lt _ positive, writesOnlyReg_setReg (.mod a b c) s d _⟩
    rw [exec_mod_decoded ha hb hc, if_neg nonzero]
  · apply exec_raises
    rw [exec_mod_decoded ha hb hc, if_pos rfl]

/-! ### AND (R93) and OR (R94), bit by bit -/

/-- The mask `0x7FFF` keeps the value modulo `2 ^ 15` (R8). -/
theorem toNat_low15 (v : Word) : (low15 v).toNat = v.toNat % 2 ^ 15 :=
  (BitVec.toNat_and v 0x7FFF).trans (Nat.and_two_pow_sub_one_eq_mod v.toNat 15)

theorem getLsbD_low15 (v : Word) (k : Nat) : (low15 v).getLsbD k = (decide (k < 15) && v.getLsbD k) := by
  rw [← BitVec.testBit_toNat, toNat_low15, Nat.testBit_mod_two_pow, BitVec.testBit_toNat]

theorem getLsbD_and15 (B C : Word) (k : Nat) :
    (and15 B C).getLsbD k = (decide (k < 15) && (B.getLsbD k && C.getLsbD k)) := by
  rw [and15, BitVec.getLsbD_and, getLsbD_low15, getLsbD_low15]
  cases decide (k < 15) <;> rfl

theorem getLsbD_or15 (B C : Word) (k : Nat) :
    (or15 B C).getLsbD k = (decide (k < 15) && (B.getLsbD k || C.getLsbD k)) := by
  rw [or15, BitVec.getLsbD_or, getLsbD_low15, getLsbD_low15, Bool.and_or_distrib_left]

/-- Settles O19: each operand's bits are masked before they meet. -/
theorem andActsOnTheLow15Bits : Obligations.AndActsOnTheLow15Bits := by
  refine fun a b c s => ⟨rfl, fun d B C ha hb hc => ?_, rejectsBadOperands (.and a b c) s⟩
  obtain ⟨t, answer, result, frame⟩ := exec_writes_of_destValueValue (i := .and a b c) rfl ha hb hc
  exact ⟨t, answer, result ▸ getLsbD_and15 B C, frame⟩

/-- Settles O20: each operand's bits are masked before they meet. -/
theorem orActsOnTheLow15Bits : Obligations.OrActsOnTheLow15Bits := by
  refine fun a b c s => ⟨rfl, fun d B C ha hb hc => ?_, rejectsBadOperands (.or a b c) s⟩
  obtain ⟨t, answer, result, frame⟩ := exec_writes_of_destValueValue (i := .or a b c) rfl ha hb hc
  exact ⟨t, answer, result ▸ getLsbD_or15 B C, frame⟩

/-! ### NOT (R95) -/

theorem toNat_not15 (B : Word) : (not15 B).toNat = 32767 - B.toNat % 32768 := by
  have masked : (not15 B).toNat = (2 ^ 16 - 1 - B.toNat) % 2 ^ 15 := (toNat_low15 (~~~B)).trans (by rw [BitVec.toNat_not])
  omega

theorem exec_not_decoded {s : State} {a b B : Word} {d : Fin 8} (ha : destIndex? a = some d) (hb : s.value? b = some B) :
    exec (.not a b) s = .next (s.commitNext (.not a b) (s.setReg d (not15 B))) :=
  congrArg Host.Outcome.next (destValue_decoded (.not a b) not15 ha hb)

/-- Settles O21: the complement of 16 bits, masked to 15, is the difference from 32767. -/
theorem notComplements15Bits : Obligations.NotComplements15Bits := fun a b s =>
  ⟨rfl, fun d B ha hb =>
    ⟨_, exec_not_decoded ha hb, by simp [toNat_not15], writesOnlyReg_setReg (.not a b) s d (not15 B)⟩,
    rejectsBadOperands (.not a b) s⟩

end Sys2Proof.Machine
end

section
/-! PROOFS. RMEM and WMEM (R96, R97). -/

namespace Sys2Proof.Machine

/-! ### RMEM (R96) -/

/-- An RMEM past the memory faults with the address (R36). -/
theorem exec_rmem_outside {s : State} {a b B : Word} {d : Fin 8} (ha : destIndex? a = some d) (hb : s.value? b = some B)
    (hB : 32768 ≤ B.toNat) : exec (.rmem a b) s = .next (s.raise .memoryOutOfRange B) := by
  simp only [exec, execRmem, withDest, withValue, ha, hb, withOperand_some, withMemRead_outside s B _ hB]

/-- Settles O22, by whether the address is inside the memory. -/
theorem rmemReadsTheWord : Obligations.RmemReadsTheWord := fun a b s =>
  ⟨rfl,
    fun d B ha hb inside =>
      ⟨_, exec_rmem_inside ha hb inside, s.afterRmem_reg a b d B, writesOnlyReg_setReg (.rmem a b) s d _⟩,
    fun _ _ ha hb outside => exec_raises (exec_rmem_outside ha hb outside),
    rejectsBadOperands (.rmem a b) s⟩

/-! ### WMEM (R97) -/

/-- A WMEM past the memory faults with the address (R37). -/
theorem exec_wmem_outside {s : State} {a b A B : Word} (ha : s.value? a = some A) (hb : s.value? b = some B)
    (hA : 32768 ≤ A.toNat) : exec (.wmem a b) s = .next (s.raise .memoryOutOfRange A) := by
  simp only [exec, execWmem, withValue, ha, hb, withOperand_some, withMemWrite_outside s A B _ hA]

/-- After a WMEM its word is the value, and every byte outside the word is as before (R97). -/
theorem afterWmem_writes (s : State) (a b addr v : Word) :
    (s.afterWmem a b addr v).mem.readWord addr.toNat = v ∧ SameMemoryBut addr.toNat s (s.afterWmem a b addr v) :=
  ⟨by rw [State.afterWmem_mem, Memory.readWord_writeWord, if_pos rfl], sameMemoryBut_of_mem_eq_writeWord rfl⟩

/-- Settles O23, by whether the address is inside the memory. -/
theorem wmemWritesTheWord : Obligations.WmemWritesTheWord := by
  refine fun a b s => ⟨rfl, fun A B ha hb inside => ?_, fun A B ha hb outside => ?_, rejectsBadOperands (.wmem a b) s⟩
  · obtain ⟨word, others⟩ := afterWmem_writes s a b A B
    exact ⟨_, exec_wmem_inside ha hb inside, word, others, commits_commit _ rfl ⟨rfl, rfl, rfl⟩ ⟨rfl, rfl⟩,
      advances_commitNext (.wmem a b) s _, fun _ => rfl, rfl, ⟨rfl, rfl⟩, ⟨rfl, rfl, rfl⟩, rfl⟩
  · exact exec_raises (exec_wmem_outside ha hb outside)

end Sys2Proof.Machine
end

section
/-! PROOFS. CALL and RET (R98, R99), and the two joined. -/

namespace Sys2Proof.Machine

/-- A taken transfer that leaves the stack `stack` behind: what CALL and RET end in (R98, R99, R114). -/
theorem commitJump_withStack_takes (i : Instr) (s : State) (target : Word) (stack : List Word) :
    (s.commitJump i target { s with stack := stack }).stack = stack ∧
      (s.commitJump i target { s with stack := stack }).pc = target ∧
      Fed target s (s.commitJump i target { s with stack := stack }) ∧
      WritesNoRegOrMemory i s (s.commitJump i target { s with stack := stack }) :=
  ⟨rfl, rfl, rfl, writesNoRegOrMemory_commit i s target stack _⟩

/-! ### CALL (R98) -/

theorem exec_call_decoded {s : State} {a A : Word} (ha : s.transfer? a = some A) :
    exec (.call a) s = .next (withPush s (s.nextPc (.call a)) fun t => s.commitJump (.call a) A t) := by
  simp only [exec, execCall, withTransfer, ha, withOperand_some]

theorem exec_call_room {s : State} {a A : Word} (ha : s.transfer? a = some A)
    (room : ∀ n, s.params.stackDepthMax = some n → s.stack.length ≠ n) :
    exec (.call a) s =
      .next (s.commitJump (.call a) A { s with stack := s.stack ++ [s.nextPc (.call a)] }) := by
  rw [exec_call_decoded ha, withPush_room s _ _ room]

theorem exec_call_full {s : State} {a A : Word} {n : Nat} (ha : s.transfer? a = some A)
    (bounded : s.params.stackDepthMax = some n) (full : s.stack.length = n) :
    exec (.call a) s = .next (s.raise .stackOverflow (capacityWord n)) := by
  rw [exec_call_decoded ha, withPush_full s _ _ bounded full]

/-- Inside the memory the return address is `pc + 2`, without wrapping. -/
theorem nextPc_call_toNat {s : State} (a : Word) (h : s.pc.toNat < 32768) :
    (s.nextPc (.call a)).toNat = s.pc.toNat + 2 := nextPc_toNat s (.call a) h (instr_length_le _)

/-- Settles O24, by whether the stack has room. -/
theorem callPushesTheReturnAddress : Obligations.CallPushesTheReturnAddress := by
  refine fun a s hpc => ⟨rfl, fun A ha room => ?_, fun A n ha bounded full => ?_, rejectsBadOperands (.call a) s⟩
  · obtain ⟨stack, pc, fed, frame⟩ :=
      commitJump_withStack_takes (.call a) s A (s.stack ++ [s.nextPc (.call a)])
    exact ⟨_, _, exec_call_room ha room, stack, nextPc_call_toNat a hpc, pc, fed, frame⟩
  · exact exec_raises (exec_call_full ha bounded full)

/-! ### RET (R99) -/

theorem exec_ret_concat {s : State} {v : Word} {rest : List Word} (stack : s.stack = rest ++ [v]) :
    exec .ret s = .next (s.commitJump .ret v { s with stack := rest }) :=
  congrArg Host.Outcome.next (withPop_concat s _ stack)

theorem exec_ret_nil {s : State} (empty : s.stack = []) : exec .ret s = .next (s.raise .stackUnderflow 0) :=
  congrArg Host.Outcome.next (withPop_nil s _ empty)

/-- Settles O25, by whether the stack has an entry. -/
theorem retGoesToThePoppedWord : Obligations.RetGoesToThePoppedWord := fun s =>
  ⟨rfl, fun v rest stack => ⟨_, exec_ret_concat stack, commitJump_withStack_takes .ret s v rest⟩,
    fun empty => exec_raises (exec_ret_nil empty)⟩

/-! ### RET after CALL -/

/-- A CALL that does not fault leaves the return address on top of the old stack. -/
theorem exec_call_stack {s t : State} {a A : Word} (ha : s.transfer? a = some A) (ht : exec (.call a) s = .next t)
    (ok : ¬ t.failed) : t.stack = s.stack ++ [s.nextPc (.call a)] := by
  rw [exec_call_decoded ha] at ht
  cases ht
  rcases withPush_cases s (s.nextPc (.call a)) fun t => s.commitJump (.call a) A t with ⟨-, pushed⟩ | ⟨n, -, -, raised⟩
  · rw [pushed]
    rfl
  · exact absurd (congrArg State.runState raised) ok

/-- Settles O54: what RET pops is what CALL pushed. -/
theorem retReturnsAfterTheCall : Obligations.RetReturnsAfterTheCall := by
  intro a A s t u hpc ha ht ok later
  have stack : u.stack = s.stack ++ [s.nextPc (.call a)] := later.trans (exec_call_stack ha ht ok)
  exact ⟨_, exec_ret_concat stack, nextPc_call_toNat a hpc, rfl⟩

end Sys2Proof.Machine
end

section
/-! PROOFS. OUT, IN and NOOP (R100 to R102): the host's answer of the step is taken whichever it is, and decides whether the
step commits, faults or holds (R116). -/

namespace Sys2Proof.Machine

variable {s : State}

/-! ### The two ends of a step that only took host answers -/

/-- A fault after an answer of the host is taken as any other: nothing but answers has gone through the ports (R105). -/
theorem faultTaken_raise_withPorts {p : Ports} (ports : OnlyAnswersTaken s p) (kind : FaultKind) (value : Word) :
    FaultTaken kind value s (State.raise { s with ports := p } kind value) :=
  ⟨rfl, rfl, rfl, rfl, rfl, rfl, rfl, rfl, ports.output, ports.feed, ports.trace, rfl, ports.commands⟩

/-- A hold after an answer of the host shows the wait alone (R116). -/
theorem held_hold_withPorts {p : Ports} (ports : OnlyAnswersTaken s p) (wait : RunState) :
    Held wait s (State.hold { s with ports := p } wait) :=
  ⟨rfl, rfl, rfl, rfl, rfl, ⟨rfl, rfl, rfl⟩, ports.output, ports.feed, ports.trace, rfl, ports.commands⟩

/-! ### OUT (R100) -/

theorem takesSinkAnswer_takeOut (s : State) : TakesSinkAnswer s { s with ports := s.ports.takeOut } := by
  refine ⟨fun a rest listed => ?_, fun empty => ?_⟩
  · simp [(takeOut_cons listed).2]
  · simp [(takeOut_nil empty).2, empty]

theorem noInput_takeOut (s : State) : NoInput s { s with ports := s.ports.takeOut } :=
  ⟨takeOut_inAnswers _, takeOut_inDraws _⟩

theorem withEmit_accept (v : Word) (k : State → State) (h : s.ports.outAnswer = .accept) :
    withEmit s v k = k { s with ports := { s.ports.takeOut with output := s.ports.takeOut.output ++ [v] } } := by
  simp only [withEmit, h]

theorem withEmit_fail (v : Word) (k : State → State) (h : s.ports.outAnswer = .fail) :
    withEmit s v k = State.raise { s with ports := s.ports.takeOut } .ioFailure 0 := by
  simp only [withEmit, h]

theorem withEmit_none (v : Word) (k : State → State) (h : s.ports.outAnswer = .none) :
    withEmit s v k = State.hold { s with ports := s.ports.takeOut } .waitOutput := by
  simp only [withEmit, h]

theorem exec_out_decoded {a A : Word} (ha : s.transfer? a = some A) :
    exec (.out a) s = .next (withEmit s A fun t => s.commitNext (.out a) t) := by
  simp only [exec, execOut, withTransfer, ha, withOperand_some]

/-- Settles O26, by the answer of the sink. -/
theorem outEmitsTheWholeWord : Obligations.OutEmitsTheWholeWord := by
  intro a s
  have taken := takesSinkAnswer_takeOut s
  have noInput := noInput_takeOut s
  refine ⟨rfl, fun A ha accepts => ?accept, fun A ha fails => ?fail, fun A ha waits => ?wait,
    rejectsBadOperands (.out a) s⟩
  case accept =>
    rw [exec_out_decoded ha, withEmit_accept A _ accepts]
    exact ⟨_, rfl, congrArg (· ++ [A]) (takeOut_output s.ports),
      commits_commit _ rfl ⟨rfl, rfl, rfl⟩ ⟨rfl, takeOut_commands _⟩, advances_commitNext (.out a) s _,
      fun _ => rfl, fun _ => rfl, rfl, taken, noInput, takeOut_feed _⟩
  case fail =>
    rw [exec_out_decoded ha, withEmit_fail A _ fails]
    exact ⟨_, rfl, faultTaken_raise_withPorts (.takeOut s) .ioFailure 0, taken, noInput⟩
  case wait =>
    rw [exec_out_decoded ha, withEmit_none A _ waits]
    exact ⟨_, rfl, held_hold_withPorts (.takeOut s) .waitOutput, taken, noInput⟩

/-! ### IN (R101) -/

theorem takesInput_takeIn (s : State) : TakesInput s { s with ports := s.ports.takeIn } := by
  refine ⟨fun a rest listed => ?_, fun empty => ?_⟩
  · simp [(takeIn_cons listed).2]
  · simp [(takeIn_nil empty).2, empty]

theorem noOutput_takeIn (s : State) : NoOutput s { s with ports := s.ports.takeIn } :=
  ⟨takeIn_outAnswers _, takeIn_outDraws _, takeIn_output _⟩

theorem withReceive_byte {b : Byte} (k : Byte → State → State) (h : s.ports.inAnswer = .byte b) :
    withReceive s k = k b { s with ports := s.ports.takeIn } := by
  simp only [withReceive, h]

theorem withReceive_eof (k : Byte → State → State) (h : s.ports.inAnswer = .eof) :
    withReceive s k = State.raise { s with ports := s.ports.takeIn } .inputExhausted 0 := by
  simp only [withReceive, h]

theorem withReceive_fail (k : Byte → State → State) (h : s.ports.inAnswer = .fail) :
    withReceive s k = State.raise { s with ports := s.ports.takeIn } .ioFailure 0 := by
  simp only [withReceive, h]

theorem withReceive_none (k : Byte → State → State) (h : s.ports.inAnswer = .none) :
    withReceive s k = State.hold { s with ports := s.ports.takeIn } .waitInput := by
  simp only [withReceive, h]

theorem exec_inp_decoded {a : Word} {d : Fin 8} (ha : destIndex? a = some d) :
    exec (.inp a) s =
      .next (withReceive s fun b t => s.commitNext (.inp a) (t.setReg d (b.setWidth 16))) := by
  simp only [exec, execIn, withDest, ha, withOperand_some]

/-- Settles O27, by the answer of the host. -/
theorem inReceivesOneByte : Obligations.InReceivesOneByte := by
  intro a s
  have taken := takesInput_takeIn s
  have noOutput := noOutput_takeIn s
  refine ⟨rfl, fun d b ha gives => ?byte, fun d ha ends => ?eof, fun d ha fails => ?fail, fun d ha waits => ?wait,
    rejectsBadOperands (.inp a) s⟩
  case byte =>
    rw [exec_inp_decoded ha, withReceive_byte _ gives]
    exact ⟨_, rfl, by rw [State.reg_commitNext, State.reg_setReg, if_pos rfl, BitVec.toNat_setWidth_of_le (by decide)],
      commits_commit _ rfl ⟨rfl, rfl, rfl⟩ ⟨rfl, takeIn_commands _⟩, advances_commitNext (.inp a) s _,
      sameRegsBut_setReg { s with ports := s.ports.takeIn } d _, fun _ => rfl, rfl, taken, noOutput, takeIn_feed _⟩
  case eof =>
    rw [exec_inp_decoded ha, withReceive_eof _ ends]
    exact ⟨_, rfl, faultTaken_raise_withPorts (.takeIn s) .inputExhausted 0, taken, noOutput⟩
  case fail =>
    rw [exec_inp_decoded ha, withReceive_fail _ fails]
    exact ⟨_, rfl, faultTaken_raise_withPorts (.takeIn s) .ioFailure 0, taken, noOutput⟩
  case wait =>
    rw [exec_inp_decoded ha, withReceive_none _ waits]
    exact ⟨_, rfl, held_hold_withPorts (.takeIn s) .waitInput, taken, noOutput⟩

/-! ### NOOP (R102) -/

/-- Settles O28: the arm commits the state itself. -/
theorem noopOnlyAdvances : Obligations.NoopOnlyAdvances := fun s =>
  ⟨rfl, _, rfl, advances_commitNext .noop s s, rfl, rfl, writesNoRegOrMemory_commit .noop s _ _ _⟩

end Sys2Proof.Machine
end

section
/-! PROOFS. Faults and holds of the engine's step (R105, R106, R116): both leave the state of the start of the step but for
what tells the end, whether fetch raises the fault or the instruction does. -/

namespace Sys2Proof.Machine

/-- What the engine's step ends in: the fault of fetch, or one of the ends of the fetched instruction. -/
theorem step_ends_of_engineTurn {s t : State} (turn : s.engineTurn) (h : step s = .next t) :
    (∃ k v, t = s.dropCommand.raise k v) ∨ ∃ i, ExecEnds i s.dropCommand t := by
  rw [step_engineTurn turn] at h
  cases hf : fetch s with
  | ok i =>
    rw [hf] at h
    exact .inr ⟨i, exec_ends h⟩
  | error fault =>
    rw [hf] at h
    cases h
    exact .inl ⟨fault.1, fault.2, rfl⟩

/-- Where the engine steps, an instruction that commits has ended RUNNING or HALTED (R70, R75). -/
theorem runState_of_committed {i : Instr} {s u : State} (hs : s.runState.steps = true) (n : Word)
    (run : (u.runState = s.runState ∧ i ≠ .halt) ∨ (u.runState = .halted ∧ i = .halt ∧ n = s.nextPc .halt)) :
    (s.commit i n u).runState = .running ∨ (s.commit i n u).runState = .halted := by
  obtain ⟨hr, -⟩ | ⟨hr, -, -⟩ := run
  · exact .inl (by rw [State.commit_runState, hr, RunState.resumed_of_steps hs])
  · exact .inr (by rw [State.commit_runState, hr]; rfl)

/-- Settles O39: fetch's fault is taken before any arm, and an arm's fault after nothing but host answers. -/
theorem everyFaultIsPrecise : Obligations.EveryFaultIsPrecise := by
  intro s t turn ht failed
  obtain ⟨k, v, rfl⟩ | ⟨i, ends⟩ := step_ends_of_engineTurn turn ht
  · exact ⟨k, faultTaken_raise _ k v⟩
  · cases ends with
    | raised k v p ports => exact ⟨k, faultTaken_raise_withPorts ports k v⟩
    | held w p ports waits =>
      obtain rfl : w = .faulted := failed
      obtain ⟨h, -⟩ | ⟨h, -⟩ := waits <;> cases h
    | committed n u _ _ _ _ _ _ run =>
      obtain h | h := runState_of_committed turn.2 n run <;> cases failed.symm.trans h

/-- A hold changes nothing that fetch reads. -/
theorem fetch_of_held {w : RunState} {s t : State} (h : Held w s t) : fetch t = fetch s := by
  obtain ⟨mem, -, -, pc, -, -, -, -, -, params, -⟩ := h
  exact fetch_congr mem pc params

/-- The engine steps again while it waits (R64, R116). -/
theorem steps_of_waiting {s : State} (h : s.waiting) : s.runState.steps = true := by
  obtain h | h := h <;> rw [h] <;> rfl

/-- A run that waits has not ended, and does not go on. -/
theorem runState_of_waiting {s : State} (h : s.waiting) :
    s.runState ≠ .faulted ∧ ¬ (s.runState = .running ∨ s.runState = .halted) := by
  obtain h | h := h <;> simp [h]

/-- Settles O40: of the ends of a step only the hold waits. -/
theorem holdIsTakenAgain : Obligations.HoldIsTakenAgain := by
  intro s t turn ht waiting
  obtain ⟨notFaulted, notCommitted⟩ := runState_of_waiting waiting
  have held : Held t.runState s.dropCommand t := by
    obtain ⟨k, v, rfl⟩ | ⟨i, ends⟩ := step_ends_of_engineTurn turn ht
    · exact absurd rfl notFaulted
    · cases ends with
      | raised => exact absurd rfl notFaulted
      | held w p ports => exact held_hold_withPorts ports w
      | committed n u _ _ _ _ _ _ run => exact absurd (runState_of_committed turn.2 n run) notCommitted
  exact ⟨held, steps_of_waiting waiting, (fetch_of_held held).trans (fetch_congr rfl rfl rfl)⟩

end Sys2Proof.Machine
end

section
/-! PROOFS. The fault kinds of an instruction (R107, R110) and its address feed (R114): what its arm can end in, said once
for each shared operation and from there for every instruction. -/

namespace Sys2Proof

/-- Whether an instruction that does not fault takes a transfer (R86 to R88, R98, R99). -/
def Instr.transfers (s : Machine.State) : Instr → Bool
  | .jmp _ | .call _ | .ret => true
  | .jt a _ => s.value? a != some 0
  | .jf a _ => s.value? a == some 0
  | _ => false

end Sys2Proof

namespace Sys2Proof.Machine

/-- How an arm run at `s` can end: with a fault of one of the kinds `faults` and nothing fed, or without a fault, and then
it has fed the pc it goes on at if it takes a transfer. -/
inductive ArmEnds (faults : List FaultKind) (transfers : Bool) (s : State) : State → Prop where
  | raised {k : FaultKind} (v : Word) {u : State} (mem : k ∈ faults) (feed : NoFeed s u) :
      ArmEnds faults transfers s (u.raise k v)
  | went {t : State} (ok : t.runState ≠ .faulted)
      (feed : t.ports.feed = if s.params.feedInUse && transfers then s.ports.feed ++ [t.pc] else s.ports.feed) :
      ArmEnds faults transfers s t

namespace ArmEnds

variable {faults : List FaultKind} {transfers : Bool} {s : State}

/-! ### How a step ends -/

theorem noTransfer {t : State} (ok : t.runState ≠ .faulted) (feed : NoFeed s t) : ArmEnds faults false s t :=
  .went ok (by simpa [NoFeed] using feed)

theorem hold {w : RunState} {u : State} (ok : w ≠ .faulted) (feed : NoFeed s u) : ArmEnds faults false s (u.hold w) :=
  .noTransfer ok feed

/-- Where the engine steps, a commit leaves the run going on (R70). -/
theorem commit (hs : s.runState.steps = true) {i : Instr} {n : Word} {u : State} (run : u.runState = s.runState)
    (feed : NoFeed s u) : ArmEnds faults false s (s.commit i n u) :=
  .noTransfer (by simp [run, RunState.resumed_of_steps hs]) feed

theorem commitJump (hs : s.runState.steps = true) {i : Instr} {target : Word} {u : State}
    (run : u.runState = s.runState) (params : u.params = s.params) (feed : NoFeed s u) :
    ArmEnds faults true s (s.commitJump i target u) :=
  .went (by simp [State.commitJump, run, RunState.resumed_of_steps hs])
    (by rw [NoFeed] at feed; simp [State.commitJump, params, feed])

/-! ### The shared operations -/

theorem operand {α : Type} {raw : Word} {d : Option α} {k : α → State}
    (bad : d = none → .invalidRegisterReference ∈ faults) (good : ∀ v, d = some v → ArmEnds faults transfers s (k v)) :
    ArmEnds faults transfers s (withOperand s raw d k) := by
  rcases withOperand_cases s raw d k with ⟨v, hv, e⟩ | ⟨hd, e⟩ <;> rw [e]
  · exact good v hv
  · exact .raised raw (bad hd) rfl

theorem resolved {α : Type} {raw : Word} {d : Option α} {k : α → State} (bad : .invalidRegisterReference ∈ faults)
    (good : ∀ v, ArmEnds faults transfers s (k v)) : ArmEnds faults transfers s (withOperand s raw d k) :=
  operand (fun _ => bad) fun v _ => good v

theorem push {v : Word} {k : State → State} (full : .stackOverflow ∈ faults)
    (room : ArmEnds faults transfers s (k { s with stack := s.stack ++ [v] })) :
    ArmEnds faults transfers s (withPush s v k) := by
  rcases withPush_cases s v k with ⟨-, e⟩ | ⟨n, -, -, e⟩ <;> rw [e]
  · exact room
  · exact .raised _ full rfl

theorem pop {k : Word → State → State} (empty : .stackUnderflow ∈ faults)
    (popped : ∀ v rest, ArmEnds faults transfers s (k v { s with stack := rest })) :
    ArmEnds faults transfers s (withPop s k) := by
  rcases withPop_cases s k with ⟨rest, v, -, e⟩ | ⟨-, e⟩ <;> rw [e]
  · exact popped v rest
  · exact .raised _ empty rfl

theorem memRead {addr : Word} {k : Word → State} (outside : .memoryOutOfRange ∈ faults)
    (inside : ∀ v, ArmEnds faults transfers s (k v)) : ArmEnds faults transfers s (withMemRead s addr k) := by
  rcases withMemRead_cases s addr k with ⟨-, e⟩ | ⟨-, e⟩ <;> rw [e]
  · exact inside _
  · exact .raised _ outside rfl

theorem memWrite {addr v : Word} {k : State → State} (outside : .memoryOutOfRange ∈ faults)
    (inside : ∀ m, ArmEnds faults transfers s (k { s with mem := m })) :
    ArmEnds faults transfers s (withMemWrite s addr v k) := by
  rcases withMemWrite_cases s addr v k with ⟨-, e⟩ | ⟨-, e⟩ <;> rw [e]
  · exact inside _
  · exact .raised _ outside rfl

theorem receive {k : Byte → State → State} (exhausted : .inputExhausted ∈ faults) (failed : .ioFailure ∈ faults)
    (received : ∀ b, ArmEnds faults false s (k b { s with ports := s.ports.takeIn })) :
    ArmEnds faults false s (withReceive s k) := by
  have feed : NoFeed s { s with ports := s.ports.takeIn } := takeIn_feed s.ports
  rcases withReceive_cases s k with ⟨b, -, e⟩ | ⟨-, e⟩ | ⟨-, e⟩ | ⟨-, e⟩ <;> rw [e]
  · exact received b
  · exact .raised _ exhausted feed
  · exact .raised _ failed feed
  · exact hold nofun feed

theorem emit {v : Word} {k : State → State} (failed : .ioFailure ∈ faults)
    (accepted : ∀ output, ArmEnds faults false s (k { s with ports := { s.ports.takeOut with output := output } })) :
    ArmEnds faults false s (withEmit s v k) := by
  have feed : NoFeed s { s with ports := s.ports.takeOut } := takeOut_feed s.ports
  rcases withEmit_cases s v k with ⟨-, e⟩ | ⟨-, e⟩ | ⟨-, e⟩ <;> rw [e]
  · exact accepted _
  · exact .raised _ failed feed
  · exact hold nofun feed

theorem destValue (hs : s.runState.steps = true) {i : Instr} {a b : Word} {f : Word → Word}
    (bad : .invalidRegisterReference ∈ faults) : ArmEnds faults false s (destValue i a b f s) :=
  resolved bad fun _ => resolved bad fun _ => commit hs rfl rfl

theorem destValueValue (hs : s.runState.steps = true) {i : Instr} {a b c : Word} {f : Word → Word → Word}
    (bad : .invalidRegisterReference ∈ faults) : ArmEnds faults false s (destValueValue i a b c f s) :=
  resolved bad fun _ => resolved bad fun _ => resolved bad fun _ => commit hs rfl rfl

theorem jumpIf (hs : s.runState.steps = true) {i : Instr} {taken : Bool} {target : Word} :
    ArmEnds faults taken s (jumpIf i taken target s) := by
  cases taken with
  | true => exact commitJump hs rfl rfl rfl
  | false => exact commit hs rfl rfl

end ArmEnds

/-! ### Instructions -/

/-- An address or character operand that is there is rejected only where it is resolved through registers (R55). -/
theorem mem_transferFaults {s : State} {raw : Word} (h : s.transfer? raw = none) :
    .invalidRegisterReference ∈ transferFaults s.params.resolveTransferOperands := by
  unfold State.transfer? at h
  split at h
  · rename_i resolve
    simp [transferFaults, resolve]
  · cases h

/-- What JT and JF can end in, where `faults` has the kind of each operand word that is rejected. -/
theorem exec_condJump_armEnds {i : Instr} {s t : State} {a b : Word} {faults : List FaultKind}
    (hs : s.runState.steps = true) (hi : i = .jt a b ∨ i = .jf a b)
    (value : s.value? a = none → .invalidRegisterReference ∈ faults)
    (target : s.transfer? b = none → .invalidRegisterReference ∈ faults) (h : exec i s = .next t) :
    ArmEnds faults (i.transfers s) s t := by
  obtain rfl | rfl := hi
  · cases h
    refine .operand value fun A hA => .operand target fun B _ => ?_
    have taken : Instr.transfers s (.jt a b) = isNonZero A := congrArg (· != some 0) hA
    exact taken ▸ .jumpIf hs
  · cases h
    refine .operand value fun A hA => .operand target fun B _ => ?_
    have taken : Instr.transfers s (.jf a b) = !isNonZero A := by
      rw [isNonZero, bne, Bool.not_not]
      exact congrArg (· == some 0) hA
    exact taken ▸ .jumpIf hs

/-- Every instruction raises only the fault kinds of its row of R107, and feeds exactly the transfer it takes. -/
theorem exec_armEnds {i : Instr} {s t : State} (hs : s.runState.steps = true) (h : exec i s = .next t) :
    ArmEnds (i.armFaults s.params.resolveTransferOperands) (i.transfers s) s t := by
  cases i with
  | halt => cases h; exact .noTransfer (show RunState.halted ≠ .faulted from nofun) rfl
  | noop => cases h; exact .commit hs rfl rfl
  | set | not => cases h; exact .destValue hs (.head _)
  | eq | gt | add | mult | and | or => cases h; exact .destValueValue hs (.head _)
  | mod a b c =>
    cases h
    refine .resolved (.head _) fun d => .resolved (.head _) fun B => .resolved (.head _) fun C => ?_
    split
    · exact .raised 0 (.tail _ (.head _)) rfl
    · exact .commit hs rfl rfl
  | push => cases h; exact .resolved (.head _) fun A => .push (.tail _ (.head _)) (.commit hs rfl rfl)
  | pop =>
    cases h
    exact .resolved (.head _) fun d => .pop (.tail _ (.head _)) fun v rest => .commit hs rfl rfl
  | jmp => cases h; exact .operand mem_transferFaults fun A _ => .commitJump hs rfl rfl rfl
  | jt a b => exact exec_condJump_armEnds hs (.inl rfl) (fun _ => .head _) (fun _ => .head _) h
  | jf a b => exact exec_condJump_armEnds hs (.inr rfl) (fun _ => .head _) (fun _ => .head _) h
  | rmem =>
    cases h
    exact .resolved (.head _) fun d => .resolved (.head _) fun B =>
      .memRead (.tail _ (.head _)) fun v => .commit hs rfl rfl
  | wmem =>
    cases h
    exact .resolved (.head _) fun A => .resolved (.head _) fun B =>
      .memWrite (.tail _ (.head _)) fun m => .commit hs rfl rfl
  | call =>
    cases h
    exact .operand (fun bad => .tail _ (mem_transferFaults bad)) fun A _ => .push (.head _) (.commitJump hs rfl rfl rfl)
  | ret => cases h; exact .pop (.head _) fun v rest => .commitJump hs rfl rfl rfl
  | out =>
    cases h
    exact .operand (fun bad => .tail _ (mem_transferFaults bad)) fun A _ =>
      .emit (.head _) fun output => .commit hs rfl (takeOut_feed _)
  | inp =>
    cases h
    exact .resolved (.head _) fun d =>
      .receive (.tail _ (.head _)) (.tail _ (.tail _ (.head _))) fun b => .commit hs rfl (takeIn_feed _)

/-- A fault of the arm is of one of its kinds. -/
theorem ArmEnds.kind_of_failed {faults : List FaultKind} {transfers : Bool} {s t : State}
    (h : ArmEnds faults transfers s t) (failed : t.failed) : ∃ kind ∈ faults, t.kind = some kind := by
  cases h with
  | raised v mem => exact ⟨_, mem, rfl⟩
  | went ok => exact absurd failed ok

/-- With transfer operands taken raw, a conditional jump whose value operand decodes does not fault (R55). -/
theorem value?_eq_none_of_condJump_failed {i : Instr} {s t : State} {a b : Word} (hs : s.runState.steps = true)
    (hi : i = .jt a b ∨ i = .jf a b) (raw : s.params.resolveTransferOperands = false) (h : exec i s = .next t)
    (failed : t.failed) : s.value? a = none := by
  by_contra decoded
  have target : s.transfer? b ≠ none := by simp [State.transfer?, raw]
  have ends : ArmEnds [] (i.transfers s) s t :=
    exec_condJump_armEnds hs hi (fun bad => absurd bad decoded) (fun bad => absurd bad target) h
  obtain ⟨kind, none, -⟩ := ends.kind_of_failed failed
  cases none

/-- Settles O34, by the ends of the arm. -/
theorem faultKindsByInstruction : Obligations.FaultKindsByInstruction := fun _ _ _ h hs failed =>
  ⟨(exec_armEnds hs h).kind_of_failed failed,
    fun raw _ _ hi => value?_eq_none_of_condJump_failed hs hi raw h failed⟩

/-- A transfer that is taken, and it alone, feeds its target. -/
theorem ArmEnds.feed_eq {faults : List FaultKind} {transfers : Bool} {s t : State} (h : ArmEnds faults transfers s t) :
    t.ports.feed = if s.params.feedInUse && (t.runState != .faulted && transfers) then s.ports.feed ++ [t.pc]
      else s.ports.feed := by
  cases h with
  | raised v mem feed => simpa [NoFeed] using feed
  | went ok feed => simpa [ok] using feed

/-- Settles O33, by the ends of the arm. -/
theorem feedCarriesExactlyTheTakenTransfers : Obligations.FeedCarriesExactlyTheTakenTransfers := by
  intro i s t h taken hs
  have feed := (exec_armEnds hs h).feed_eq
  cases i <;> exact feed

end Sys2Proof.Machine
end

section
/-! PROOFS. Feed and trace (R114, R115) are written and never read: a step of the machine without them is the step with
them, less their records. -/

namespace Sys2Proof.Machine

/-- The state with feed and trace not in use and nothing recorded of them. -/
def State.unrecorded (s : State) : State :=
  { s with
    params := { s.params with feedInUse := false, traceInUse := false }
    ports := { s.ports with feed := [], trace := [] } }

variable {s t : State}

/-! ### The shared operations -/

theorem withOperand_unrecorded {α : Type} {raw : Word} {d : Option α} {k k' : α → State}
    (hk : ∀ v, k' v = (k v).unrecorded) : withOperand s.unrecorded raw d k' = (withOperand s raw d k).unrecorded := by
  cases d with
  | some v => exact hk v
  | none => rfl

theorem withPush_unrecorded {v : Word} {k k' : State → State}
    (hk : k' { s.unrecorded with stack := s.stack ++ [v] } = (k { s with stack := s.stack ++ [v] }).unrecorded) :
    withPush s.unrecorded v k' = (withPush s v k).unrecorded := by
  have full : s.unrecorded.stackFull = s.stackFull := rfl
  unfold withPush
  rw [full]
  split
  · rfl
  · exact hk

theorem withPop_unrecorded {k k' : Word → State → State}
    (hk : ∀ v rest, k' v { s.unrecorded with stack := rest } = (k v { s with stack := rest }).unrecorded) :
    withPop s.unrecorded k' = (withPop s k).unrecorded := by
  have stack : s.unrecorded.stack = s.stack := rfl
  unfold withPop
  rw [stack]
  cases s.stack.getLast? with
  | some v => exact hk v _
  | none => rfl

theorem withMemRead_unrecorded {addr : Word} {k k' : Word → State} (hk : ∀ v, k' v = (k v).unrecorded) :
    withMemRead s.unrecorded addr k' = (withMemRead s addr k).unrecorded := by
  have mem : s.unrecorded.mem = s.mem := rfl
  unfold withMemRead
  rw [mem]
  cases s.mem.read? addr.toNat with
  | some v => exact hk v
  | none => rfl

theorem withMemWrite_unrecorded {addr v : Word} {k k' : State → State}
    (hk : ∀ m, k' { s.unrecorded with mem := m } = (k { s with mem := m }).unrecorded) :
    withMemWrite s.unrecorded addr v k' = (withMemWrite s addr v k).unrecorded := by
  have mem : s.unrecorded.mem = s.mem := rfl
  unfold withMemWrite
  rw [mem]
  cases s.mem.write? addr.toNat v with
  | some m => exact hk m
  | none => rfl

/-- Taking an answer of the host leaves feed and trace alone. -/
theorem takeIn_unrecorded (s : State) :
    { s.unrecorded with ports := s.unrecorded.ports.takeIn } = State.unrecorded { s with ports := s.ports.takeIn } := by
  have answers : s.unrecorded.ports.inAnswers = s.ports.inAnswers := rfl
  unfold Ports.takeIn
  rw [answers]
  cases s.ports.inAnswers <;> rfl

theorem takeOut_unrecorded (s : State) :
    { s.unrecorded with ports := s.unrecorded.ports.takeOut } = State.unrecorded { s with ports := s.ports.takeOut } := by
  have answers : s.unrecorded.ports.outAnswers = s.ports.outAnswers := rfl
  unfold Ports.takeOut
  rw [answers]
  cases s.ports.outAnswers <;> rfl

theorem withReceive_unrecorded {k k' : Byte → State → State} (hk : ∀ b u, k' b u.unrecorded = (k b u).unrecorded) :
    withReceive s.unrecorded k' = (withReceive s k).unrecorded := by
  have answer : s.unrecorded.ports.inAnswer = s.ports.inAnswer := rfl
  simp only [withReceive, answer, takeIn_unrecorded]
  cases s.ports.inAnswer with
  | byte b => exact hk b _
  | eof | fail | none => rfl

theorem withEmit_unrecorded {v : Word} {k k' : State → State} (hk : ∀ u, k' u.unrecorded = (k u).unrecorded) :
    withEmit s.unrecorded v k' = (withEmit s v k).unrecorded := by
  have answer : s.unrecorded.ports.outAnswer = s.ports.outAnswer := rfl
  unfold withEmit
  rw [answer, takeOut_unrecorded]
  cases s.ports.outAnswer with
  | accept => exact hk { s with ports := { s.ports.takeOut with output := s.ports.takeOut.output ++ [v] } }
  | fail | none => rfl

theorem destValue_unrecorded {i : Instr} {a b : Word} {f : Word → Word} :
    destValue i a b f s.unrecorded = (destValue i a b f s).unrecorded :=
  withOperand_unrecorded fun _ => withOperand_unrecorded fun _ => rfl

theorem destValueValue_unrecorded {i : Instr} {a b c : Word} {f : Word → Word → Word} :
    destValueValue i a b c f s.unrecorded = (destValueValue i a b c f s).unrecorded :=
  withOperand_unrecorded fun _ => withOperand_unrecorded fun _ => withOperand_unrecorded fun _ => rfl

theorem jumpIf_unrecorded {i : Instr} {taken : Bool} {target : Word} :
    jumpIf i taken target s.unrecorded = (jumpIf i taken target s).unrecorded := by cases taken <;> rfl

/-! ### Instructions and steps -/

/-- Every instruction does the same with feed and trace not in use, less their records. -/
theorem exec_unrecorded {i : Instr} (h : exec i s = .next t) : exec i s.unrecorded = .next t.unrecorded := by
  cases i with
  | halt | noop => cases h; rfl
  | set | not => cases h; exact congrArg Host.Outcome.next destValue_unrecorded
  | eq | gt | add | mult | and | or => cases h; exact congrArg Host.Outcome.next destValueValue_unrecorded
  | mod a b c =>
    cases h
    refine congrArg Host.Outcome.next (withOperand_unrecorded fun d => withOperand_unrecorded fun B =>
      withOperand_unrecorded fun C => ?_)
    split <;> rfl
  | push => cases h; exact congrArg Host.Outcome.next (withOperand_unrecorded fun _ => withPush_unrecorded rfl)
  | pop => cases h; exact congrArg Host.Outcome.next (withOperand_unrecorded fun _ => withPop_unrecorded fun _ _ => rfl)
  | jmp => cases h; exact congrArg Host.Outcome.next (withOperand_unrecorded fun _ => rfl)
  | jt | jf =>
    cases h
    exact congrArg Host.Outcome.next (withOperand_unrecorded fun _ => withOperand_unrecorded fun _ => jumpIf_unrecorded)
  | rmem =>
    cases h
    exact congrArg Host.Outcome.next (withOperand_unrecorded fun _ => withOperand_unrecorded fun _ =>
      withMemRead_unrecorded fun _ => rfl)
  | wmem =>
    cases h
    exact congrArg Host.Outcome.next (withOperand_unrecorded fun _ => withOperand_unrecorded fun _ =>
      withMemWrite_unrecorded fun _ => rfl)
  | call => cases h; exact congrArg Host.Outcome.next (withOperand_unrecorded fun _ => withPush_unrecorded rfl)
  | ret => cases h; exact congrArg Host.Outcome.next (withPop_unrecorded fun _ _ => rfl)
  | out => cases h; exact congrArg Host.Outcome.next (withOperand_unrecorded fun _ => withEmit_unrecorded fun _ => rfl)
  | inp =>
    cases h
    exact congrArg Host.Outcome.next (withOperand_unrecorded fun _ => withReceive_unrecorded fun _ _ => rfl)

/-- Of the parameters, fetch reads only how address and character operands are taken (R55). -/
theorem fetch_unrecorded (s : State) : fetch s.unrecorded = fetch s := by
  have window : fetchWindow s.unrecorded.mem s.unrecorded.pc.toNat = fetchWindow s.mem s.pc.toNat := rfl
  unfold fetch
  rw [window]
  cases decode (fetchWindow s.mem s.pc.toNat) with
  | ok i => rfl
  | error r => cases r <;> rfl

theorem loadByHost_unrecorded (s : State) (addr : BitVec 15) (data : Word) :
    s.unrecorded.loadByHost addr data = (s.loadByHost addr data).unrecorded := by
  have run : s.unrecorded.runState = s.runState := rfl
  unfold State.loadByHost
  rw [run]
  split <;> rfl

theorem startByHost_unrecorded (s : State) : s.unrecorded.startByHost = s.startByHost.unrecorded := by
  have run : s.unrecorded.runState = s.runState := rfl
  unfold State.startByHost
  rw [run]
  split <;> rfl

theorem obey_unrecorded (s : State) (c : HostCommand) : s.unrecorded.obey c = (s.obey c).unrecorded := by
  cases c with
  | none | reset => rfl
  | load addr data => exact loadByHost_unrecorded s addr data
  | start => exact startByHost_unrecorded s

/-- Every step does the same with feed and trace not in use, less their records. -/
theorem step_unrecorded (h : step s = .next t) : step s.unrecorded = .next t.unrecorded := by
  by_cases turn : s.engineTurn
  · have turn' : s.unrecorded.engineTurn := turn
    rw [step_engineTurn turn] at h
    rw [step_engineTurn turn', fetch_unrecorded]
    cases hf : fetch s with
    | ok i =>
      rw [hf] at h
      exact exec_unrecorded h
    | error fault =>
      rw [hf] at h
      cases h
      rfl
  · have turn' : ¬ s.unrecorded.engineTurn := turn
    rw [step_of_not_engineTurn turn] at h
    cases h
    rw [step_of_not_engineTurn turn']
    exact congrArg Host.Outcome.next (obey_unrecorded s.dropCommand s.command)

/-- States that differ in nothing but feed and trace and their use have the same block and, feed and trace apart, the same
ports. -/
theorem sameBlock_and_ports_of_unrecorded_eq (h : t.unrecorded = s.unrecorded) :
    SameBlock s t ∧ t.ports = { s.ports with feed := t.ports.feed, trace := t.ports.trace } := by
  have ports := congrArg (fun u => { u.ports with feed := t.ports.feed, trace := t.ports.trace }) h
  simp only [State.unrecorded, State.mk.injEq] at h
  obtain ⟨mem, regs, stack, pc, run, kind, faultPc, faultValue, -, -⟩ := h
  exact ⟨⟨mem, regs, stack, pc, run, kind, faultPc, faultValue⟩, ports⟩

/-- Settles O52: less their records, both steps are the step without feed and trace. -/
theorem optionalOutputsChangeNoState : Obligations.OptionalOutputsChangeNoState := by
  intro s t t' feed trace ht ht'
  have plain := step_unrecorded ht
  have switched := step_unrecorded ht'
  exact sameBlock_and_ports_of_unrecorded_eq (Host.Outcome.next.inj (switched.symm.trans plain))

end Sys2Proof.Machine
end

section
/-! PROOFS. The host's commands (R118 to R122): what reset, load and start do, and what the boot order leaves. -/

namespace Sys2Proof.Machine

variable {s : State}

/-! ### Reset (R118) -/

@[simp] theorem Memory.readWord_nil (k : Nat) : Memory.readWord [] k = 0 := rfl

/-- Every register is 0 after reset (R33). -/
theorem reg_resetByHost (s : State) (r : Fin 8) : s.resetByHost.reg r = 0 := by
  simp [State.reg, State.resetByHost, State.reset]

theorem atReset_resetByHost (s : State) : AtReset s.resetByHost :=
  ⟨fun _ hk => read?_eq_some_iff.2 ⟨hk, rfl⟩, reg_resetByHost s, rfl, rfl, rfl, rfl, rfl, rfl, rfl, rfl, rfl⟩

/-- On the reset state the reset command changes nothing. -/
theorem resetByHost_reset : State.reset.resetByHost = State.reset := rfl

/-- Settles O43: both states are what the reset command leaves. -/
theorem resetGivesEveryFieldItsValue : Obligations.ResetGivesEveryFieldItsValue := by
  refine ⟨resetByHost_reset ▸ atReset_resetByHost State.reset, fun s hc => ?_⟩
  refine ⟨s.dropCommand.resetByHost, ?_, atReset_resetByHost _, rfl⟩
  rw [step_command (by simp [hc]), hc, State.obey]

/-- Settles O49: what a reset command leaves meets the invariant, and on the reset state it changes nothing. -/
theorem invariantHoldsAtReset : Obligations.InvariantHoldsAtReset :=
  State.inv_resetByHost State.reset

/-! ### Load and start (R119, R120) -/

theorem startByHost_of_idle (h : s.runState = .idle) : s.startByHost = { s with runState := .running } := if_pos h

theorem loadByHost_of_idle (h : s.runState = .idle) (addr : BitVec 15) (data : Word) :
    s.loadByHost addr data = { s with mem := s.mem.writeWord addr.toNat data } := if_pos h

/-- Outside IDLE a step with a load or start command only drops it. -/
theorem step_command_of_not_idle (hs : s.runState ≠ .idle) (hn : s.command ≠ .none) (hr : s.command ≠ .reset) :
    step s = .next s.dropCommand := by
  rw [step_command hn, obey_of_not_idle (s := s.dropCommand) hs hr]

/-- Settles O44, by the command and by whether the block is IDLE. -/
theorem loadAndStartActOnlyInIdle : Obligations.LoadAndStartActOnlyInIdle := by
  refine fun s => ⟨fun hc idle => ?_, fun hc busy => ?_, fun addr data hc idle => ?_, fun addr data hc busy => ?_⟩
  · rw [step_command (by simp [hc]), hc, State.obey, startByHost_of_idle (s := s.dropCommand) idle]
  · exact step_command_of_not_idle busy (by simp [hc]) (by simp [hc])
  · rw [step_command (by simp [hc]), hc, State.obey, loadByHost_of_idle (s := s.dropCommand) idle]
    exact ⟨_, rfl, read?_eq_some_iff.2 ⟨addr.isLt, by simp [Memory.readWord_writeWord]⟩,
      sameMemoryBut_of_mem_eq_writeWord rfl, rfl⟩
  · exact step_command_of_not_idle busy (by simp [hc]) (by simp [hc])

/-! ### Boot (R122) -/

/-- The loader accepts an image of whole words that fit the memory, and boots it by reset, loads and start (R119). -/
theorem bootCommands_eq_some_iff {image : List Byte} {cmds : List HostCommand} :
    bootCommands image = some cmds ↔
      ∃ ws, imageWords image = some ws ∧ ws.length ≤ 32768 ∧ cmds = .reset :: (loadCommands 0 ws ++ [.start]) := by
  unfold bootCommands
  cases imageWords image with
  | none => simp
  | some ws => simp [eq_comm]

theorem loadCommands_length (addr : Nat) (ws : List Word) : (loadCommands addr ws).length = ws.length := by
  induction ws generalizing addr with
  | nil => rfl
  | cons w ws ih => simp [loadCommands, ih]

/-- The state in which the commands `rest` are still to come. -/
def State.withCommands (s : State) (rest : List HostCommand) : State :=
  { s with ports := { s.ports with commands := rest } }

/-- A run begins with a step. -/
theorem run_succ {n : Nat} {s t : State} (h : step s = .next t) : core.run (n + 1) s = core.run n t := by
  have answer : core.step s = .next t := h
  simp only [Host.Core.run, answer]

/-- The step of a command takes it from the front of the list and obeys it. -/
theorem step_withCommands (c : HostCommand) (hc : c ≠ .none) (rest : List HostCommand) :
    step (s.withCommands (c :: rest)) = .next ((s.withCommands rest).obey c) := step_command hc

theorem step_load (idle : s.runState = .idle) (addr : BitVec 15) (data : Word) (rest : List HostCommand) :
    step (s.withCommands (.load addr data :: rest)) =
      .next (State.withCommands { s with mem := s.mem.writeWord addr.toNat data } rest) :=
  (step_withCommands (.load addr data) nofun rest).trans
    (congrArg _ (loadByHost_of_idle (s := s.withCommands rest) idle addr data))

theorem step_start (idle : s.runState = .idle) (rest : List HostCommand) :
    step (s.withCommands (.start :: rest)) = .next (State.withCommands { s with runState := .running } rest) :=
  (step_withCommands .start nofun rest).trans (congrArg _ (startByHost_of_idle (s := s.withCommands rest) idle))

/-- A word address of the memory is one of the load port (R31). -/
theorem toNat_loadAddr {addr : Nat} (h : addr < 32768) : (BitVec.ofNat 15 addr).toNat = addr := by
  rw [BitVec.toNat_ofNat]
  exact Nat.mod_eq_of_lt h

/-- In IDLE, the load commands of words put them at the addresses from `addr` on (R119). -/
theorem run_loadCommands {addr : Nat} {ws : List Word} (idle : s.runState = .idle) (fits : addr + ws.length ≤ 32768)
    (n : Nat) (rest : List HostCommand) :
    core.run (ws.length + n) (s.withCommands (loadCommands addr ws ++ rest)) =
      core.run n (State.withCommands { s with mem := s.mem.place addr ws } rest) := by
  induction ws generalizing s addr with
  | nil => rw [List.length_nil, Nat.zero_add]; rfl
  | cons w ws ih =>
    rw [List.length_cons] at fits
    have inside : addr < 32768 := by omega
    have loaded := step_load idle (BitVec.ofNat 15 addr) w (loadCommands (addr + 1) ws ++ rest)
    rw [toNat_loadAddr inside] at loaded
    have others := ih (s := { s with mem := s.mem.writeWord addr w }) (addr := addr + 1) idle (by omega)
    rw [List.length_cons, Nat.succ_add, Memory.place, if_pos inside]
    exact (run_succ loaded).trans others

/-- What the boot of the words `ws` leaves (R122). -/
def State.booted (s : State) (ws : List Word) : State :=
  State.withCommands { s.resetByHost with mem := Memory.place [] 0 ws, runState := .running } []

/-- From every state, the boot commands of words lead to the booted state, one a step. -/
theorem run_bootCommands {ws : List Word} (fits : ws.length ≤ 32768)
    (hc : s.ports.commands = .reset :: (loadCommands 0 ws ++ [.start])) :
    core.run (ws.length + 1 + 1) s = .next (s.booted ws) := by
  have reset : step (s.withCommands (.reset :: (loadCommands 0 ws ++ [.start]))) =
      .next (s.resetByHost.withCommands (loadCommands 0 ws ++ [.start])) := step_withCommands .reset nofun _
  have start : step (State.withCommands { s.resetByHost with mem := Memory.place [] 0 ws } [.start]) =
      .next (s.booted ws) := step_start rfl []
  have placed := run_loadCommands (s := s.resetByHost) (addr := 0) (ws := ws) rfl (by omega) 1 [.start]
  rw [← hc] at reset
  exact (run_succ reset).trans (placed.trans (run_succ start))

/-- A booted memory holds the words from 0 on, and 0 past them (R118, R119). -/
theorem readWord_place_nil {ws : List Word} {k : Nat} (hk : k < 32768) :
    (Memory.place [] 0 ws).readWord k = ws.getD k 0 := by
  rw [Memory.readWord_place]
  by_cases h : k < ws.length
  · rw [if_pos ⟨by omega, by omega, hk⟩, Nat.sub_zero]
  · rw [if_neg (by omega), Memory.readWord_nil, List.getD_eq_default _ _ (by omega)]

/-- Settles O46: reset clears the block, the loads place the words, and start sets it RUNNING. -/
theorem bootLoadsTheImageAndStarts : Obligations.BootLoadsTheImageAndStarts := by
  refine ⟨fun image => ?_, fun image ws cmds s hw hb hc => ?_⟩
  · simp [Option.isSome_iff_exists, bootCommands_eq_some_iff]
  · obtain ⟨ws', hw', fits, hcmds⟩ := bootCommands_eq_some_iff.1 hb
    obtain rfl := Option.some.inj (hw.symm.trans hw')
    refine ⟨s.booted ws, ?_, rfl, rfl, rfl, reg_resetByHost s, rfl, fun k hk => readWord_place_nil hk⟩
    rw [hcmds, List.length_cons, List.length_append, loadCommands_length]
    exact run_bootCommands fits (hc.trans hcmds)

end Sys2Proof.Machine
end
